-- ==== Sys2Proof/Word.lean ====
section
/-!
DEFINITION. The widths of the AnnetteOS descriptor block (00_scope.md R6, R8): every value is an unsigned
bit vector, and no operation is signed.
-/

namespace Sys2Proof

/-- u8: a command byte, an access byte, `STATUS`, one byte of memory (R8, R18, R20). -/
abbrev Byte := BitVec 8

/-- u32: a linear address, a base, a limit (`ADDR_W` = 32, R6; R18). -/
abbrev Word := BitVec 32

/-- u64: the 64-bit view of an 8-byte descriptor record (R9), and the width of `RES` (R16). -/
abbrev Record := BitVec 64

/-- u48: the 6-byte load record (R22, R58). -/
abbrev LoadRecord := BitVec 48

/-- The CPU's table register, 48 bits in two fields that install writes together (10_state.md R19). -/
structure Gdtr where
  /-- `GDTR.LIMIT[15:0]`: the table's byte size less one. -/
  limit : BitVec 16
  /-- `GDTR.BASE[31:0]`: the table's linear address. -/
  base : Word
deriving DecidableEq, Repr, Inhabited

end Sys2Proof
end

