-- ==== Sys2Proof/Machine/Fixed.lean ====
section
/-!
DEFINITION. The values the spec fixes for this hardware (00_scope.md R6): no model argument changes them (R7).
-/

namespace Sys2Proof.Machine

/-- `DESC_BYTES`: the size of a descriptor record (R6). -/
def descBytes : Nat := 8

/-- `ENTRY_COUNT` (R6). -/
def entryCount : Nat := 4

/-- `TABLE_BYTES` = 4 * 8 (R6). -/
def tableSize : Nat := entryCount * descBytes

/-- `GDT_LIMIT`: the size field sent to the CPU, the table's byte size less one (R6, R88). -/
def gdtLimit : BitVec 16 := 31#16

/-- `BYTE_GRAN_MAX`: the largest limit encoded in bytes (R6, R68). -/
def byteGranMax : Word := 65536#32

/-- `FLAGS_BYTE`: byte-6 high nibble, byte granular, 32-bit operand size (R6, R68). -/
def flagsByte : BitVec 4 := 0x4#4

/-- `FLAGS_PAGE`: byte-6 high nibble, page granular, 32-bit operand size (R6, R69). -/
def flagsPage : BitVec 4 := 0xC#4

/-- `SEG_LIMIT`: the limit argument of the code and data entries, 64 MiB (R6, R86). -/
def segLimit : Word := 0x04000000#32

/-- `CODE_ACCESS` (R6, R25; D9). -/
def codeAccess : Byte := 0x9A#8

/-- `DATA_ACCESS` (R6, R25; D9, which the spec marks as general knowledge). -/
def dataAccess : Byte := 0x92#8

/-- `CODE_SEL`, the code entry's byte offset (R27, R97). -/
def codeSelector : BitVec 16 := 0x0010#16

/-- `DATA_SEL`, the data entry's byte offset (R27, R97). -/
def dataSelector : BitVec 16 := 0x0018#16

/-- The highest `TABLE_BASE` whose region does not wrap the top of the address space (R35). -/
def lastTableBase : Word := 0xFFFFFFE0#32

/-- The number of linear addresses, 0 to 2^32 - 1 (R28). -/
def addressCount : Nat := 4294967296

end Sys2Proof.Machine
end

