-- ==== Sys2Proof/Config.lean ====
section
/-!
DEFINITION. What the spec leaves to the instance: the three model arguments (00_scope.md R6, R7) and the
contents after reset of what the spec says holds no value (70_reset_and_hazards.md R118). Each is an opaque
constant: it has a value, one for every run, and no proof can say which.
The values the spec FIXES stand in Sys2Proof/Machine/Fixed.lean.
-/

namespace Sys2Proof

/-- The model arguments of R7, the only free parameters of the hardware; fixed for a run (R118). -/
structure Params where
  /-- `TABLE_BASE`: the table's own linear address, any u32 (R6, D11). -/
  tableBase : Word
  /-- `CPL0`: true when the executing core is at the privileged level (R6, R111, D17). -/
  cpl0 : Bool
  /-- `GDTR_INIT`: what the CPU's table register held before install (R6, R19, D20). -/
  gdtrInit : Gdtr
deriving DecidableEq, Repr, Inhabited

/-- `TABLE_BASE` of the machine that `State.reset` starts (assumption 5). -/
opaque Config.tableBase : Word

/-- `CPL0` of the machine that `State.reset` starts (assumption 5). -/
opaque Config.cpl0 : Bool

/-- `GDTR_INIT` of the machine that `State.reset` starts (assumption 5). -/
opaque Config.gdtrInit : Gdtr

/-- The arguments of the machine that `State.reset` starts. -/
def Config.params : Params := ⟨Config.tableBase, Config.cpl0, Config.gdtrInit⟩

/-- What the `CMD` port holds after reset: no value by R118, so an unknown one (assumption 3). -/
opaque Config.cmdAtReset : Byte

/-- What the `BASE_IN` port holds after reset (R118, assumption 3). -/
opaque Config.baseInAtReset : Word

/-- What the `LIMIT_IN` port holds after reset (R118, assumption 3). -/
opaque Config.limitInAtReset : Word

/-- What the `ACCESS_IN` port holds after reset (R118, assumption 3). -/
opaque Config.accessInAtReset : Byte

/-- What the `REC_IN` port holds after reset (R118, assumption 3). -/
opaque Config.recInAtReset : Record

/-- What the `PD` latch holds after reset: no value by R22 and R118, so an unknown one (assumption 4). -/
opaque Config.pdAtReset : LoadRecord

end Sys2Proof
end

