-- ==== Sys2Proof/Machine/State.lean ====
section
/-!
DEFINITION. Everything the spec gives the machine, as plain data (10_state.md; 70_reset_and_hazards.md R118),
the host's pending actions (30_encoding.md R65), and the reasons a step can stop.
-/

namespace Sys2Proof.Machine

/-- Linear memory (20_memory.md; 10_state.md R28): the bytes that something has written, addresses strictly
rising. An address not listed holds no value (R25, R118; assumption 6). -/
abbrev Memory := List Host.Cell

/-- One action on the block, in the host's program order (R17, R65), with the two things that are not lines of
R65: a reset (R118, R119) and the CPU instruction the loader dispatches (R60). -/
inductive Event where
  /-- `SET BASE_IN, v` (R65). -/
  | setBaseIn (v : Word)
  /-- `SET LIMIT_IN, v` (R65). -/
  | setLimitIn (v : Word)
  /-- `SET ACCESS_IN, v` (R65). -/
  | setAccessIn (v : Byte)
  /-- `SET REC_IN, v` (R65). -/
  | setRecIn (v : Record)
  /-- The host writes a command byte to `CMD`: a mnemonic line, or `CMD c` (R51, R65). -/
  | command (c : Byte)
  /-- `READ RES` (R65). -/
  | readRes
  /-- `READ STATUS` (R65). -/
  | readStatus
  /-- `HOSTWRITE addr, n, value`: the low `n` bytes of `value`, least significant byte at `addr` (R65, R11). -/
  | hostWrite (addr : Word) (n value : Nat)
  /-- `HOSTREAD addr, n` (R65, R11). -/
  | hostRead (addr : Word) (n : Nat)
  /-- Reset, which starts a run with its model arguments (R118, R119; assumption 7). -/
  | reset (p : Params)
  /-- The CPU executes the three bytes of a dispatched instruction on its own. No line of R65 does this and
  CONSTRUCT dispatches inside its own step (R91): it stands for the LGDT row alone (assumption 10). -/
  | tableLoad (b0 b1 modrm : Byte)
deriving DecidableEq, Repr

/-- What a host read returned. -/
inductive HostValue where
  /-- What `READ RES` returned. -/
  | res (v : Record)
  /-- What `READ STATUS` returned. -/
  | status (v : Byte)
  /-- What `HOSTREAD` returned, byte by byte from its address; `none` where memory holds no value. -/
  | memory (bytes : List (Option Byte))
deriving DecidableEq, Repr

/-- The machine. -/
structure State where
  /-- Port `CMD`: the last command byte accepted (R18, R51). -/
  cmd : Byte
  /-- Port `BASE_IN` (R18). -/
  baseIn : Word
  /-- Port `LIMIT_IN` (R18). -/
  limitIn : Word
  /-- Port `ACCESS_IN` (R18). -/
  accessIn : Byte
  /-- Port `REC_IN` (R18), in the 64-bit view (R9). -/
  recIn : Record
  /-- `RES`, the result register; `none` is the spec's own state "no command has written it since reset", which
  `READ RES` answers with a fault (R16, R128; assumption 2). -/
  res : Option Record
  /-- `STATUS`: bits 1:0 `LIFE`, bit 2 `FAULT`, bits 6:3 `CAUSE`, bit 7 reserved (R20). -/
  status : Byte
  /-- `PD`, the internal latch that holds the 6-byte load record (R22, R58). -/
  pd : LoadRecord
  /-- `GDTR`, the CPU's table register (R19). -/
  gdtr : Gdtr
  /-- The mutation watch on the table region: off after reset, on from install (R50, R118). -/
  watch : Bool
  /-- `TABLE_BASE`, fixed for the run (R6, R118). -/
  tableBase : Word
  /-- `CPL0`, fixed for the run (R6, R111, R118). -/
  cpl0 : Bool
  /-- Linear memory, the table among it (R25, R28). -/
  mem : Memory
  /-- The host's actions still to come, the next one first (R17, R65; assumption 1). The MODEL's own field. -/
  pending : List Event
  /-- What the host's last read returned; `none` before any read and after one that returned no value
  (R102, R108; assumption 20). The MODEL's own field. -/
  hostSaw : Option HostValue
deriving DecidableEq, Repr

/-- Why the machine has no next state. A fault CAUSE of 60_exceptions.md R102 is not one of these: it is taken,
and leads to a next state whose `STATUS` records it (R107). -/
inductive Fault where
  /-- The block is Faulted: it accepts no command and has no step until reset (R108). Raised by every command's
  meaning and by the step for every event that R108 does not keep possible. Safe: the spec says there is no step
  (assumption 8). -/
  | halted
  /-- A host access reaches past address 2^32 - 1, where the spec has no memory (R28). Raised by `HOSTWRITE` and
  `HOSTREAD`, before anything is written. Safe: the model stops (assumption 13). -/
  | outsideAddressSpace
deriving DecidableEq, Repr

/-- What the model gives no meaning to. -/
inductive Refusal where
  /-- The instruction has no meaning in the model yet. No arm of `exec` answers it. Safe: the model stops. -/
  | notModelled (mnemonic : String)
  /-- Bytes handed over as the dispatched CPU instruction that are not the table load: the loader dispatches no
  other instruction (R60). Raised by the step. Safe: the model stops (assumption 12). -/
  | notTheTableLoad
  /-- `0F 01 /2` with ModRM.mod = 11 names no memory operand, so it is not the instruction of R60. Raised by LGDT's
  meaning on an ill-formed term. Safe: the model stops (assumption 12). -/
  | registerOperand
deriving DecidableEq, Repr

/-- The state of R118, for given model arguments: `STATUS` 0x00, `RES` unwritten, `GDTR` at `GDTR_INIT`, the watch
off, memory without values, the ports and `PD` at unknown values. -/
def State.resetWith (p : Params) : State where
  cmd := Config.cmdAtReset
  baseIn := Config.baseInAtReset
  limitIn := Config.limitInAtReset
  accessIn := Config.accessInAtReset
  recIn := Config.recInAtReset
  res := none
  status := 0x00#8
  pd := Config.pdAtReset
  gdtr := p.gdtrInit
  watch := false
  tableBase := p.tableBase
  cpl0 := p.cpl0
  mem := []
  pending := []
  hostSaw := none

/-- The machine right after reset (R118), waiting for the host's first action. -/
def State.reset : State := State.resetWith Config.params

end Sys2Proof.Machine
end

