-- ==== Sys2Proof/Machine/Flags.lean ====
section
/-!
DEFINITION. The fields of `STATUS` (10_state.md R20) and the granularity flags of a record (R23, R24). The block
has no condition codes (R23).
-/

namespace Sys2Proof.Machine

/-- `STATUS[1:0]`, the lifecycle (R20). -/
def lifeField (v : Byte) : BitVec 2 := v.extractLsb' 0 2

/-- `STATUS[2]`, `FAULT` (R20). -/
def faultField (v : Byte) : Bool := v.getLsbD 2

/-- `STATUS[6:3]`, `CAUSE` (R20). -/
def causeField (v : Byte) : BitVec 4 := v.extractLsb' 3 4

/-- `STATUS[7]`, reserved (R20). -/
def reservedField (v : Byte) : Bool := v.getLsbD 7

/-- `LIFE` = 0: Unconstructed (R20, R21). -/
def lifeUnconstructed : BitVec 2 := 0#2

/-- `LIFE` = 2: Installed (R20, R21). -/
def lifeInstalled : BitVec 2 := 2#2

/-- `STATUS` with `LIFE` moved to Installed, every other bit kept (R91). -/
def statusInstalled (v : Byte) : Byte := (v &&& 0xFC#8) ||| lifeInstalled.setWidth 8

/-- `STATUS` with `FAULT` set and `CAUSE` at `code`, `LIFE` and bit 7 kept (R107). -/
def statusFaulted (v : Byte) (code : BitVec 4) : Byte :=
  (v &&& 0x83#8) ||| 0x04#8 ||| (code.setWidth 8 <<< 3)

/-- The lifecycle of the machine (R21). -/
def State.life (s : State) : BitVec 2 := lifeField s.status

/-- The block is Faulted (R108). -/
def State.faulted (s : State) : Bool := faultField s.status

/-- The recorded fault cause, 0 for none (R20, R102). -/
def State.cause (s : State) : BitVec 4 := causeField s.status

/-- The flags nibble ENCODE writes for a limit: byte granular exactly when `limit <= 65536` (R24, R68, R69). -/
def flagsNibble (limit : Word) : BitVec 4 :=
  if limit ≤ byteGranMax then flagsByte else flagsPage

/-- Decode's test for page granularity on byte 6: bits 7 and 6 both 1 (R76). -/
def pageGranular (b6 : Byte) : Bool := (b6 &&& 0xC0#8) == 0xC0#8

end Sys2Proof.Machine
end

