-- ==== Sys2Proof/Machine/Ops.lean ====
section
/-!
DEFINITION. The named operations every meaning is built from: bytes of a value, linear memory, the 64-bit view of
a record, writing `RES`, TAKING A FAULT (60_exceptions.md R107), what a Faulted block accepts (R108), and the
dispatch of the CPU's table load (41_table_loader.md R89, R90). The spec has no return from a fault (R109): only
reset leaves the Faulted state.
-/

namespace Sys2Proof.Machine

/-! ### Bytes and records -/

/-- The low `n` bytes of `v`, least significant first (R9, R11). -/
def leBytes : Nat → Nat → List Byte
  | 0, _ => []
  | n + 1, v => BitVec.ofNat 8 v :: leBytes n (v / 256)

/-- The number that bytes in address order stand for, least significant first; none if one has no value (R11). -/
def leNumber : List (Option Byte) → Option Nat
  | [] => some 0
  | b :: bs =>
    match b, leNumber bs with
    | some v, some n => some (v.toNat + 256 * n)
    | _, _ => none

/-- Byte `i` of a record: `rec.b[i] = rec64[8i+7:8i]` (R9). -/
def recByte (r : Record) (i : Nat) : Byte := r.extractLsb' (8 * i) 8

/-- The 64-bit view of the record with these bytes, `b0` first in memory: the sum over `i` of `b[i] << (8*i)`
(R9, R31, R67). -/
def ofRecBytes (b0 b1 b2 b3 b4 b5 b6 b7 : Byte) : Record :=
  BitVec.ofNat 64 (b0.toNat + 2 ^ 8 * b1.toNat + 2 ^ 16 * b2.toNat + 2 ^ 24 * b3.toNat
    + 2 ^ 32 * b4.toNat + 2 ^ 40 * b5.toNat + 2 ^ 48 * b6.toNat + 2 ^ 56 * b7.toNat)

/-! ### Linear memory -/

/-- What an address that memory does not list reads as: no value (R25, R118; assumption 6). -/
def unlistedByte : Option Byte := none

/-- The canonical form: addresses strictly rising, each a linear address (R28). -/
abbrev Memory.wf (m : Memory) : Prop :=
  m.Pairwise (fun a b => a.1 < b.1) ∧ ∀ c ∈ m, c.1 < addressCount

/-- `MemRead(a, 1)`: the byte at `a` (R11). -/
def memGet : Memory → Nat → Option Byte
  | [], _ => unlistedByte
  | (k, v) :: m, a => if a = k then some v else memGet m a

/-- `MemWrite(a, 1, b)`, keeping the canonical form (R11). -/
def memSet : Memory → Nat → Byte → Memory
  | [], a, b => [(a, b)]
  | (k, v) :: m, a, b =>
    if a < k then (a, b) :: (k, v) :: m
    else if a = k then (a, b) :: m
    else (k, v) :: memSet m a b

/-- Write bytes at rising addresses from `a`. -/
def memWriteBytes (m : Memory) (a : Nat) : List Byte → Memory
  | [] => m
  | b :: bs => memWriteBytes (memSet m a b) (a + 1) bs

/-- `MemWrite(a, n, v)` (R11). -/
def memWrite (m : Memory) (a n v : Nat) : Memory := memWriteBytes m a (leBytes n v)

/-- `MemRead(a, n)`, byte by byte (R11). -/
def memRead (m : Memory) (a : Nat) : Nat → List (Option Byte)
  | 0 => []
  | n + 1 => memGet m a :: memRead m (a + 1) n

/-- `n` bytes at `a` lie in the address space (R28). -/
def inAddressSpace (a n : Nat) : Bool := decide (a + n ≤ addressCount)

/-- `n` bytes at `a` meet the table region `[tableBase, tableBase + 31]` (R40, R50). -/
def touchesTable (tableBase : Word) (a n : Nat) : Bool :=
  decide (0 < n ∧ a < tableBase.toNat + tableSize ∧ tableBase.toNat < a + n)

/-! ### Faults -/

/-- The seven fault causes (R102). -/
inductive Cause where
  /-- A reserved `CMD` value. -/
  | illegalCommand
  /-- A selector query before install. -/
  | notInstalled
  /-- CONSTRUCT when the table is installed. -/
  | alreadyInstalled
  /-- The install step without privilege. -/
  | privilegeViolation
  /-- CONSTRUCT with a table region that wraps the top of the address space. -/
  | tableRegionWrap
  /-- A write to the installed table region. -/
  | tableMutated
  /-- `READ RES` before any command has written `RES`. -/
  | readUnwritten
deriving DecidableEq, Repr

/-- The code recorded in `STATUS.CAUSE` (R102). -/
def Cause.code : Cause → BitVec 4
  | .illegalCommand => 1#4
  | .notInstalled => 2#4
  | .alreadyInstalled => 3#4
  | .privilegeViolation => 4#4
  | .tableRegionWrap => 5#4
  | .tableMutated => 6#4
  | .readUnwritten => 7#4

/-- TAKING A FAULT, `raise Fault(c)` (R11, R107): `STATUS.FAULT` and `STATUS.CAUSE` are written and nothing else;
there is no saved register, no vector and no mode to change. -/
def State.raise (s : State) (c : Cause) : State :=
  { s with status := statusFaulted s.status c.code }

/-- What a Faulted block does with a command: it accepts none and has no step (R108). A running block performs
`k` to completion, in one step (R17, R129). -/
def State.accept (s : State) (k : State → State) : Host.Outcome State Fault Refusal :=
  if s.faulted then .fault .halted else .next (k s)

/-! ### Registers -/

/-- `RES <- v` (R11, R16). -/
def State.writeRes (s : State) (v : Record) : State := { s with res := some v }

/-- The `GDTR` value that a load record holds: LIMIT in `PD[15:0]`, BASE in `PD[47:16]` (R58, R84). -/
def gdtrOfRecord (pd : LoadRecord) : Gdtr := ⟨pd.extractLsb' 0 16, pd.extractLsb' 16 32⟩

/-- `GDTR <- PD`, both fields in one write (R19, R89). -/
def State.loadGdtr (s : State) : State := { s with gdtr := gdtrOfRecord s.pd }

/-- The dispatch of the CPU's table load with `PD` as its operand: privileged, it writes `GDTR` and goes on with
`k`; not privileged, it raises `PRIVILEGE_VIOLATION` instead (R89, R90). -/
def State.dispatchLoad (s : State) (k : State → State) : State :=
  if s.cpl0 then k s.loadGdtr else s.raise .privilegeViolation

end Sys2Proof.Machine
end

