-- ==== Sys2Proof/Machine/Operands.lean ====
section
/-!
DEFINITION. Where a command's operands come from: the ports (10_state.md R18), the fields of a record
(30_encoding.md R53 to R55), and the table's addresses (41_table_loader.md R101). There is no other operand form.
-/

namespace Sys2Proof.Machine

/-- The base of a record: bytes 7, 4, 3, 2, most significant first (R55, R74). -/
def recBase (r : Record) : Word :=
  ((recByte r 7).setWidth 32 <<< 24) ||| ((recByte r 4).setWidth 32 <<< 16)
    ||| ((recByte r 3).setWidth 32 <<< 8) ||| (recByte r 2).setWidth 32

/-- The raw limit of a record, 20 bits: the low nibble of byte 6, byte 1, byte 0 (R54, R75). -/
def recRawLimit (r : Record) : Word :=
  (((recByte r 6).setWidth 32 &&& 0xF#32) <<< 16) ||| ((recByte r 1).setWidth 32 <<< 8)
    ||| (recByte r 0).setWidth 32

/-- The access byte of a record (R56). -/
def recAccess (r : Record) : Byte := recByte r 5

/-- The granularity flag that decode reads from a record: true is page granular (R76). -/
def recPageGranular (r : Record) : Bool := pageGranular (recByte r 6)

/-- The linear address of entry `i`: `TABLE_BASE + 8*i` (R25, R101). -/
def entryAddr (tableBase : Word) (i : Nat) : Nat := tableBase.toNat + descBytes * i

/-- The table region would wrap the top of the address space (R35, R85). -/
def State.tableWraps (s : State) : Bool := decide (lastTableBase < s.tableBase)

end Sys2Proof.Machine
end

