-- ==== Sys2Proof/Machine/Codec.lean ====
section
/-!
DEFINITION. `segment_descriptor_codec` (40_codec.md): the pure functions, and one meaning for each command of the
unit. The meanings read the ports their rule names and write `RES` alone (10_state.md R30).
-/

namespace Sys2Proof.Machine

/-- `lim20`: the limit as the 20-bit field holds it (R67, R68, R69). -/
def encodeLimit (limit : Word) : Word :=
  if limit ≤ byteGranMax then limit
  else if limit &&& 0xFFF#32 ≠ 0xFFF#32 then (limit >>> 12) - 1#32
  else limit >>> 12

/-- ENCODE's byte 6: the flags nibble above the limit's high four bits (R67, R70). -/
def encodeByte6 (flags : BitVec 4) (lim20 : Word) : Byte :=
  (flags.setWidth 8 <<< 4) ||| (((lim20 >>> 16) &&& 0xF#32).setWidth 8)

/-- `encode(base, limit, t)`: the record, placed byte by byte as R67 places it. -/
def encodeRecord (base limit : Word) (t : Byte) : Record :=
  ofRecBytes
    ((encodeLimit limit &&& 0xFF#32).setWidth 8)
    (((encodeLimit limit >>> 8) &&& 0xFF#32).setWidth 8)
    ((base &&& 0xFF#32).setWidth 8)
    (((base >>> 8) &&& 0xFF#32).setWidth 8)
    (((base >>> 16) &&& 0xFF#32).setWidth 8)
    t
    (encodeByte6 (flagsNibble limit) (encodeLimit limit))
    (((base >>> 24) &&& 0xFF#32).setWidth 8)

/-- The limit a record decodes to, in bytes (R75). -/
def decodeLimitOf (r : Record) : Word :=
  if recPageGranular r then (recRawLimit r <<< 12) ||| 0xFFF#32 else recRawLimit r

/-- The granularity a record decodes to: 1 is page granular, 0 is byte granular (R77). -/
def decodeGranOf (r : Record) : Record := if recPageGranular r then 1#64 else 0#64

/-- NOP: `skip` (R66). -/
def execNop (s : State) : Host.Outcome State Fault Refusal :=
  s.accept fun s => s

/-- ENCODE: `RES` takes the record of `BASE_IN`, `LIMIT_IN` and `ACCESS_IN`; it never fails (R67, R71). -/
def execEncode (s : State) : Host.Outcome State Fault Refusal :=
  s.accept fun s => s.writeRes (encodeRecord s.baseIn s.limitIn s.accessIn)

/-- DECODE_BASE: `RES` takes the base of `REC_IN` (R74). -/
def execDecodeBase (s : State) : Host.Outcome State Fault Refusal :=
  s.accept fun s => s.writeRes ((recBase s.recIn).setWidth 64)

/-- DECODE_LIMIT: `RES` takes the limit of `REC_IN` (R75). -/
def execDecodeLimit (s : State) : Host.Outcome State Fault Refusal :=
  s.accept fun s => s.writeRes ((decodeLimitOf s.recIn).setWidth 64)

/-- DECODE_GRAN: `RES` takes the granularity flag of `REC_IN` (R77). -/
def execDecodeGran (s : State) : Host.Outcome State Fault Refusal :=
  s.accept fun s => s.writeRes (decodeGranOf s.recIn)

end Sys2Proof.Machine
end

