-- ==== Sys2Proof/Syntax.lean ====
section
/-!
DEFINITION. The instructions: one constructor for each row of spec/opcode_table.json. The eight commands of
DESC-CMD v1 carry no operand in the word (30_encoding.md R51: operands come from the ports); the ninth row is
the CPU instruction the loader dispatches (R60), with the two ModRM fields its encoding leaves open.
-/

namespace Sys2Proof

inductive Instr where
  /-- NOP, `CMD = 0x00` (40_codec.md R66). -/
  | nop
  /-- ENCODE, `CMD = 0x01` (R67). -/
  | encode
  /-- DECODE_BASE, `CMD = 0x02` (R74). -/
  | decodeBase
  /-- DECODE_LIMIT, `CMD = 0x03` (R75). -/
  | decodeLimit
  /-- DECODE_GRAN, `CMD = 0x04` (R77). -/
  | decodeGran
  /-- CONSTRUCT, `CMD = 0x10` (41_table_loader.md R84). -/
  | construct
  /-- CODE_SEL, `CMD = 0x11` (R95). -/
  | codeSel
  /-- DATA_SEL, `CMD = 0x12` (R96). -/
  | dataSel
  /-- LGDT, `0F 01 /2` with a memory ModRM (R60): `mod` is ModRM bits 7:6, `rm` is ModRM bits 2:0. -/
  | lgdt (mod : BitVec 2) (rm : BitVec 3)
deriving DecidableEq, Repr

end Sys2Proof
end

