-- ==== Sys2Proof/WellFormed.lean ====
section
/-!
DEFINITION. Which instruction terms the encodings admit. The eight commands have no field, so every one is
well formed (30_encoding.md R64); LGDT names a memory operand, so its `mod` is not 11 (R60).
-/

namespace Sys2Proof

/-- The instruction is one the spec's encodings give a word to. -/
def Instr.wellFormed : Instr → Bool
  | .nop => true
  | .encode => true
  | .decodeBase => true
  | .decodeLimit => true
  | .decodeGran => true
  | .construct => true
  | .codeSel => true
  | .dataSel => true
  | .lgdt mod _ => mod != 0b11#2

end Sys2Proof
end

