-- ==== Sys2Proof/Machine/Loader.lean ====
section
/-!
DEFINITION. `descriptor_table_loader` (41_table_loader.md): the table's four entries, the load record, and one
meaning for CONSTRUCT, CODE_SEL, DATA_SEL and the dispatched LGDT.
-/

namespace Sys2Proof.Machine

/-- `E[i]`: null, unused, code, data, each the codec's encode of fixed arguments (R25, R84, R86). -/
def tableEntry (i : Nat) : Record :=
  if i = 2 then encodeRecord 0#32 segLimit codeAccess
  else if i = 3 then encodeRecord 0#32 segLimit dataAccess
  else encodeRecord 0#32 0#32 0#8

/-- `MemWrite(TABLE_BASE + 8*i, 8, E[i])` (R37, R87). -/
def writeEntry (tableBase : Word) (m : Memory) (i : Nat) : Memory :=
  memWrite m (entryAddr tableBase i) descBytes (tableEntry i).toNat

/-- The four writes, in index order (R37, R87). -/
def writeTable (tableBase : Word) (m : Memory) : Memory :=
  writeEntry tableBase (writeEntry tableBase (writeEntry tableBase (writeEntry tableBase m 0) 1) 2) 3

/-- The table stands in memory: the block is Built (R21, R87). -/
def State.buildTable (s : State) : State := { s with mem := writeTable s.tableBase s.mem }

/-- The load record: size field 31 in bits 15:0, the table's address in bits 47:16 (R58, R88). -/
def loadRecord (tableBase : Word) : LoadRecord :=
  (tableBase.setWidth 48 <<< 16) ||| gdtLimit.setWidth 48

/-- `PD` takes the load record (R84, R88). -/
def State.formPd (s : State) : State := { s with pd := loadRecord s.tableBase }

/-- The lifecycle moves to Installed and the mutation watch turns on (R91, R118). -/
def State.markInstalled (s : State) : State :=
  { s with status := statusInstalled s.status, watch := true }

/-- What CONSTRUCT does, its three checks in the order of R85 (R84). -/
def State.construct (s : State) : State :=
  if s.life = lifeInstalled then s.raise .alreadyInstalled
  else if s.tableWraps then s.raise .tableRegionWrap
  else s.buildTable.formPd.dispatchLoad State.markInstalled

/-- CONSTRUCT: build, form the load record, install, in one atomic step (R84, R91). -/
def execConstruct (s : State) : Host.Outcome State Fault Refusal :=
  s.accept State.construct

/-- What a selector query does: `NOT_INSTALLED` until the table is installed, then the constant (R95, R96). -/
def State.querySelector (s : State) (sel : BitVec 16) : State :=
  if s.life = lifeInstalled then s.writeRes (sel.setWidth 64) else s.raise .notInstalled

/-- CODE_SEL: `RES` takes 16, the code entry's offset (R95, R97). -/
def execCodeSel (s : State) : Host.Outcome State Fault Refusal :=
  s.accept fun s => s.querySelector codeSelector

/-- DATA_SEL: `RES` takes 24, the data entry's offset (R96, R97). -/
def execDataSel (s : State) : Host.Outcome State Fault Refusal :=
  s.accept fun s => s.querySelector dataSelector

/-- LGDT, the CPU instruction the loader dispatches, on its own: its memory operand is `PD` whatever its addressing
form (R60), and its effect is the install step's: `GDTR` or `PRIVILEGE_VIOLATION` (R89, R90). `STATUS.LIFE` and the
watch are CONSTRUCT's to change (R91; assumption 10). It does not check the lifecycle: on an Installed block, or a second
time, it loads again and raises no `ALREADY_INSTALLED`, which R85 and R122 give to CONSTRUCT (the model's choice,
assumption 23). `rm` selects the addressing form alone. -/
def execLgdt (mod : BitVec 2) (rm : BitVec 3) (s : State) : Host.Outcome State Fault Refusal :=
  if (Instr.lgdt mod rm).wellFormed then s.accept fun s => s.dispatchLoad fun s => s
  else .refused .registerOperand

end Sys2Proof.Machine
end

