-- ==== Sys2Proof/Machine/Dispatch.lean ====
section
/-!
DEFINITION. One arm for each instruction of spec/opcode_table.json.
-/

namespace Sys2Proof.Machine

def exec (i : Instr) (s : State) : Host.Outcome State Fault Refusal :=
  match i with
  -- segment_descriptor_codec
  | .nop => Sys2Proof.Machine.execNop s
  | .encode => Sys2Proof.Machine.execEncode s
  | .decodeBase => Sys2Proof.Machine.execDecodeBase s
  | .decodeLimit => Sys2Proof.Machine.execDecodeLimit s
  | .decodeGran => Sys2Proof.Machine.execDecodeGran s
  -- descriptor_table_loader
  | .construct => Sys2Proof.Machine.execConstruct s
  | .codeSel => Sys2Proof.Machine.execCodeSel s
  | .dataSel => Sys2Proof.Machine.execDataSel s
  -- the CPU instruction the loader dispatches
  | .lgdt mod rm => Sys2Proof.Machine.execLgdt mod rm s

end Sys2Proof.Machine
end

