-- ==== Sys2Proof/Decode.lean ====
section
/-!
DEFINITION. The decoder, total on any bytes, and the encoder beside it (30_encoding.md sections 1, 5 to 7).
One byte is a command of the block (R51, R64); three bytes are the CPU instruction that the loader dispatches,
in address order (R60). Everything else is rejected by name.
-/

namespace Sys2Proof

/-- Why bytes stand for no instruction. -/
inductive DecodeError where
  /-- A `CMD` value not in the opcode map: reserved and illegal (R61). -/
  | reservedCommand
  /-- Three bytes that are not `0F 01 /2` (R60). -/
  | notTableLoad
  /-- `0F 01 /2` with ModRM.mod = 11, which names no memory operand (R60). -/
  | registerOperand
  /-- Neither one byte nor three. -/
  | wrongLength
deriving DecidableEq, Repr

/-- `CMD[7:4]`, the unit (R51). -/
def unitField (c : Byte) : BitVec 4 := c.extractLsb' 4 4

/-- `CMD[3:0]`, the function within the unit (R51). -/
def funcField (c : Byte) : BitVec 4 := c.extractLsb' 0 4

/-- The functions of unit 0x0, `segment_descriptor_codec` (R52). -/
def decodeCodec (func : BitVec 4) : Except DecodeError Instr :=
  if func = 0x0#4 then .ok .nop
  else if func = 0x1#4 then .ok .encode
  else if func = 0x2#4 then .ok .decodeBase
  else if func = 0x3#4 then .ok .decodeLimit
  else if func = 0x4#4 then .ok .decodeGran
  else .error .reservedCommand

/-- The functions of unit 0x1, `descriptor_table_loader` (R52). -/
def decodeLoader (func : BitVec 4) : Except DecodeError Instr :=
  if func = 0x0#4 then .ok .construct
  else if func = 0x1#4 then .ok .codeSel
  else if func = 0x2#4 then .ok .dataSel
  else .error .reservedCommand

/-- The command a byte written to `CMD` stands for; total on the 256 values (R52, R61, R64). -/
def decodeCommand (c : Byte) : Except DecodeError Instr :=
  if unitField c = 0x0#4 then decodeCodec (funcField c)
  else if unitField c = 0x1#4 then decodeLoader (funcField c)
  else .error .reservedCommand

/-- ModRM bits 7:6. -/
def modField (m : Byte) : BitVec 2 := m.extractLsb' 6 2

/-- ModRM bits 5:3. -/
def regField (m : Byte) : BitVec 3 := m.extractLsb' 3 3

/-- ModRM bits 2:0. -/
def rmField (m : Byte) : BitVec 3 := m.extractLsb' 0 3

/-- The dispatched CPU instruction, its three bytes in address order (R60). -/
def decodeTableLoad (b0 b1 modrm : Byte) : Except DecodeError Instr :=
  if b0 = 0x0F#8 ∧ b1 = 0x01#8 ∧ regField modrm = 0b010#3 then
    if modField modrm = 0b11#2 then .error .registerOperand
    else .ok (.lgdt (modField modrm) (rmField modrm))
  else .error .notTableLoad

/-- The instruction that bytes stand for. -/
def decode : List Byte → Except DecodeError Instr
  | [c] => decodeCommand c
  | [b0, b1, modrm] => decodeTableLoad b0 b1 modrm
  | _ => .error .wrongLength

/-- The bytes of a well-formed instruction, from the opcode map (R52) and the LGDT encoding (R60). -/
def encode : Instr → List Byte
  | .nop => [0x00#8]
  | .encode => [0x01#8]
  | .decodeBase => [0x02#8]
  | .decodeLimit => [0x03#8]
  | .decodeGran => [0x04#8]
  | .construct => [0x10#8]
  | .codeSel => [0x11#8]
  | .dataSel => [0x12#8]
  | .lgdt mod rm => [0x0F#8, 0x01#8, (mod ++ 0b010#3 ++ rm : BitVec 8)]

/-- The bytes, in address order, of an instruction whose bits are numbered as spec/opcode_table.json numbers
them: a command row is its one byte; the LGDT row is one number of 24 bits whose most significant byte is the
first byte, 0x0F (assumption 11). -/
def tableBytes (nbits w : Nat) : List Byte :=
  if nbits ≤ 8 then [BitVec.ofNat 8 w]
  else [BitVec.ofNat 8 (w / 65536), BitVec.ofNat 8 (w / 256), BitVec.ofNat 8 w]

/-- The instruction the decoder reads from an opcode-table row's bits. -/
def decodeTableWord (nbits w : Nat) : Option Instr :=
  match decode (tableBytes nbits w) with
  | .ok i => some i
  | .error _ => none

end Sys2Proof
end

