-- ==== Sys2Proof/Machine/Fetch.lean ====
section
/-!
DEFINITION. How an instruction reaches the block: the host's write to `CMD` (30_encoding.md R51), or the dispatch
of the CPU's table load (R60).
-/

namespace Sys2Proof.Machine

/-- The host's next action is taken from its program (R17). -/
def State.popEvent (s : State) (rest : List Event) : State := { s with pending := rest }

/-- The command byte stands at port `CMD` (R18, R51). -/
def State.writeCmd (s : State) (c : Byte) : State := { s with cmd := c }

/-- The event by which an instruction's bytes reach the block: one byte is a write to `CMD`, three are the
dispatched CPU instruction. -/
def eventOfBytes : List Byte → Event
  | [c] => .command c
  | [b0, b1, modrm] => .tableLoad b0 b1 modrm
  | _ => .command 0x00#8

/-- The event for an opcode-table row's bits. -/
def fetchEvent (nbits w : Nat) : Event := eventOfBytes (tableBytes nbits w)

/-- A reserved command raises `ILLEGAL_COMMAND`: it reads no port and writes nothing else (R61). -/
def State.illegalCommand (s : State) : Host.Outcome State Fault Refusal :=
  s.accept fun s => s.raise .illegalCommand

end Sys2Proof.Machine
end

