-- ==== Sys2Proof/Machine/Host.lean ====
section
/-!
DEFINITION. The host's own actions (30_encoding.md R65): they carry no opcode and each is a step of its own
(60_exceptions.md R106). What a Faulted block leaves the host is in R108.
-/

namespace Sys2Proof.Machine

/-- The host's read returned `v` (`none`: no value). -/
def State.saw (s : State) (v : Option HostValue) : State := { s with hostSaw := v }

/-- `READ STATUS`: in every state, Faulted included (R20). -/
def State.readStatus (s : State) : State := s.saw (some (.status s.status))

/-- `READ RES`: Faulted, it returns no value and records nothing (R108); running, it returns `RES`, or raises
`READ_UNWRITTEN` if no command has written it since reset (R16, R128). -/
def State.readRes (s : State) : State :=
  if s.faulted then s.saw none
  else
    match s.res with
    | some v => s.saw (some (.res v))
    | none => (s.saw none).raise .readUnwritten

/-- `HOSTWRITE`: the bytes are written, and if one lies in the table region while it is watched the block takes
`TABLE_MUTATED`; the bytes stay written (R11, R50). -/
def State.hostWrite (s : State) (addr : Word) (n value : Nat) : State :=
  let s' := { s with mem := memWrite s.mem addr.toNat n value }
  if s.watch && touchesTable s.tableBase addr.toNat n then s'.raise .tableMutated else s'

/-- `HOSTREAD`: the bytes of memory, with no side effect on the block (R39). -/
def State.hostRead (s : State) (addr : Word) (n : Nat) : State :=
  s.saw (some (.memory (memRead s.mem addr.toNat n)))

/-- A host access of `n` bytes at `addr`: a Faulted block leaves the host none (R108; assumption 8), and the address space ends
at 2^32 - 1 (R28; assumption 13). -/
def State.hostAccess (s : State) (addr : Word) (n : Nat) (k : State → State) :
    Host.Outcome State Fault Refusal :=
  if s.faulted then .fault .halted
  else if inAddressSpace addr.toNat n then .next (k s)
  else .fault .outsideAddressSpace

/-- Reset: every piece of state as R118 leaves it, the run's model arguments taken afresh; the host's program goes
on (R119; assumption 7). -/
def State.doReset (s : State) (p : Params) : State :=
  { State.resetWith p with pending := s.pending }

/-! ### Pseudo-instructions (R65): each is the list of lines it abbreviates -/

/-- `ENCODE b, l, a`. -/
def pseudoEncode (b l : Word) (a : Byte) : List Event :=
  [.setBaseIn b, .setLimitIn l, .setAccessIn a, .command 0x01#8]

/-- `DECODE_BASE r`. -/
def pseudoDecodeBase (r : Record) : List Event := [.setRecIn r, .command 0x02#8]

/-- `DECODE_LIMIT r`. -/
def pseudoDecodeLimit (r : Record) : List Event := [.setRecIn r, .command 0x03#8]

/-- `DECODE_GRAN r`. -/
def pseudoDecodeGran (r : Record) : List Event := [.setRecIn r, .command 0x04#8]

end Sys2Proof.Machine
end

