-- ==== Sys2Proof/Machine/Perform.lean ====
section
/-!
DEFINITION. What one event does to the machine (30_encoding.md R51, R61, R65; 60_exceptions.md R106, R108).
-/

namespace Sys2Proof.Machine

/-- A port write by the host, which has no step while the block is Faulted (R18, R108; assumption 8). -/
def State.setPort (s : State) (k : State → State) : Host.Outcome State Fault Refusal := s.accept k

/-- What one event does to a machine whose program no longer lists it. -/
def performEvent (e : Event) (s : State) : Host.Outcome State Fault Refusal :=
  match e with
  | .setBaseIn v => s.setPort fun s => { s with baseIn := v }
  | .setLimitIn v => s.setPort fun s => { s with limitIn := v }
  | .setAccessIn v => s.setPort fun s => { s with accessIn := v }
  | .setRecIn v => s.setPort fun s => { s with recIn := v }
  | .command c =>
    match decode [c] with
    | .ok i => exec i (s.writeCmd c)
    | .error _ => (s.writeCmd c).illegalCommand
  | .readRes => .next s.readRes
  | .readStatus => .next s.readStatus
  | .hostWrite addr n value => s.hostAccess addr n fun s => s.hostWrite addr n value
  | .hostRead addr n => s.hostAccess addr n fun s => s.hostRead addr n
  | .reset p => .next (s.doReset p)
  | .tableLoad b0 b1 modrm =>
    match decode [b0, b1, modrm] with
    | .ok i => exec i s
    | .error _ => .refused .notTheTableLoad

/-- No action to come: a running block waits for the host (R118; assumption 9), a Faulted one has no step (R108). -/
def State.waitForHost (s : State) : Host.Outcome State Fault Refusal := s.accept fun s => s

end Sys2Proof.Machine
end

