-- ==== Sys2Proof/Machine/Step.lean ====
section
/-!
DEFINITION. One step: the host's next action, performed to completion before the next (10_state.md R17;
70_reset_and_hazards.md R129).
-/

namespace Sys2Proof.Machine

/-- One step: the next action of the host's program, which the program then no longer lists. -/
def step (s : State) : Host.Outcome State Fault Refusal :=
  match s.pending with
  | [] => s.waitForHost
  | e :: rest => performEvent e (s.popEvent rest)

/-- `s` with an opcode-table row's instruction as the very next thing the block performs: the host's next action is
the write of that command byte to `CMD`, or the dispatch of the LGDT row's bytes (assumptions 1 and 10). -/
def State.withFetchWord (s : State) (nbits w : Nat) : State :=
  { s with pending := fetchEvent nbits w :: s.pending }

end Sys2Proof.Machine
end

