-- ==== Sys2Proof/Safety.lean ====
section
/-!
DEFINITION. The terms claims use: a block that runs, a legal `STATUS`, and the invariant of the machine.
-/

namespace Sys2Proof.Machine

/-- The block is not Faulted, so it accepts commands (R108). -/
abbrev State.running (s : State) : Prop := s.faulted = false

/-- The lifecycle is Installed (R21). -/
abbrev State.installed (s : State) : Prop := s.life = lifeInstalled

/-- The values of `STATUS` the block produces (R20): `LIFE` 0 or 2, bit 7 zero, `CAUSE` 0 exactly when `FAULT` is
0, and otherwise one of the seven codes of R102. -/
abbrev statusLegal (v : Byte) : Prop :=
  (lifeField v = lifeUnconstructed ∨ lifeField v = lifeInstalled) ∧
  reservedField v = false ∧
  (faultField v = false ↔ causeField v = 0#4) ∧
  causeField v ≤ 7#4

/-- What taking the fault of code `k` does to `STATUS`, field by field: `FAULT` is set, `CAUSE` is `k`, `LIFE` and the
reserved bit stay (R107). -/
abbrev recordsFault (before after : Byte) (k : BitVec 4) : Prop :=
  faultField after = true ∧ causeField after = k ∧ lifeField after = lifeField before ∧
  reservedField after = reservedField before

/-- The table's 32 bytes as R94 writes them out, in address order. -/
def tableImage : List Byte :=
  [0x00#8, 0x00#8, 0x00#8, 0x00#8, 0x00#8, 0x00#8, 0x40#8, 0x00#8] ++
  [0x00#8, 0x00#8, 0x00#8, 0x00#8, 0x00#8, 0x00#8, 0x40#8, 0x00#8] ++
  [0xFF#8, 0x3F#8, 0x00#8, 0x00#8, 0x00#8, 0x9A#8, 0xC0#8, 0x00#8] ++
  [0xFF#8, 0x3F#8, 0x00#8, 0x00#8, 0x00#8, 0x92#8, 0xC0#8, 0x00#8]

/-- Memory holds the table of R94 at `base`. -/
abbrev holdsTable (m : Memory) (base : Word) : Prop :=
  memRead m base.toNat 32 = tableImage.map some

/-- Two memories read alike outside the 32 bytes at `base`. -/
abbrev sameOutsideTable (m m' : Memory) (base : Word) : Prop :=
  ∀ a, a < base.toNat ∨ base.toNat + 32 ≤ a → memGet m' a = memGet m a

/-- The next action of the host's program is a reset. -/
abbrev State.resetsNext (s : State) : Prop := ∃ p rest, s.pending = .reset p :: rest

/-- The 32 bytes at `TABLE_BASE` hold the four entries, each in its byte order (R32, R94). -/
abbrev State.tableIntact (s : State) : Prop :=
  ∀ i < entryCount, ∀ j < descBytes,
    memGet s.mem (entryAddr s.tableBase i + j) = some (recByte (tableEntry i) j)

/-- The table reads as R32 says: each byte is its entry's, a read inside an entry returns that entry's bytes in order,
and a 64-bit little-endian read of an entry returns its 64-bit view. -/
abbrev State.tableReadsInOrder (s : State) : Prop :=
  ∀ i < 4,
    (∀ j < 8, memRead s.mem (s.tableBase.toNat + 8 * i + j) 1 = [some (recByte (tableEntry i) j)]) ∧
    (∀ k n, k + n ≤ 8 → ∀ j < n,
      (memRead s.mem (s.tableBase.toNat + 8 * i + k) n)[j]? = some (some (recByte (tableEntry i) (k + j)))) ∧
    leNumber (memRead s.mem (s.tableBase.toNat + 8 * i) 8) = some (tableEntry i).toNat

/-- What the machine keeps: a legal `STATUS`, memory in canonical form, the watch on exactly when Installed, and,
once Installed, a region that does not wrap, privilege, `PD` and `GDTR` naming the table, and the table's bytes
unless a write to them has been recorded. -/
structure State.Inv (s : State) : Prop where
  status : statusLegal s.status
  mem : Memory.wf s.mem
  watch : s.watch = true ↔ s.installed
  region : s.installed → s.tableBase ≤ lastTableBase
  privileged : s.installed → s.cpl0 = true
  record : s.installed → s.pd = loadRecord s.tableBase
  gdtr : s.installed → s.gdtr = ⟨gdtLimit, s.tableBase⟩
  table : s.installed → s.cause ≠ Cause.tableMutated.code → s.tableIntact

end Sys2Proof.Machine
end

