-- ==== Sys2Proof/Certificates/Slice0/Obligations.lean ====
section
/-!
DEFINITION. The statements about this model, for the provers. Each docstring names the rule of spec/ it says, or the
assumption of notes/assumptions/ where it says a choice of the model's.
-/

open Sys2Proof Sys2Proof.Machine

/-! ### Encoding -/

/-- Words written out from the opcode map (R52) and from the LGDT encoding (R60) decode to their instructions. -/
def Obligations.SpecWordsDecode : Prop :=
  decode [0x00#8] = .ok .nop ∧ decode [0x01#8] = .ok .encode ∧ decode [0x02#8] = .ok .decodeBase ∧
  decode [0x03#8] = .ok .decodeLimit ∧ decode [0x04#8] = .ok .decodeGran ∧
  decode [0x10#8] = .ok .construct ∧ decode [0x11#8] = .ok .codeSel ∧ decode [0x12#8] = .ok .dataSel ∧
  decode [0x0F#8, 0x01#8, 0x15#8] = .ok (.lgdt 0b00#2 0b101#3) ∧
  decode [0x0F#8, 0x01#8, 0x96#8] = .ok (.lgdt 0b10#2 0b110#3)

/-- Decode inverts encode on every well-formed instruction, and whatever bytes decode to a well-formed instruction are
its encoding: no bit of an encoding is dropped and no two byte strings share an instruction (R52, R60, R64; that one
byte is a command and three are LGDT is the model's way of telling them apart, assumption 22). -/
def Obligations.DecodeEncodeAgree : Prop :=
  (∀ i : Instr, i.wellFormed = true → decode (encode i) = .ok i) ∧
  (∀ (bs : List Byte) (i : Instr), decode bs = .ok i → i.wellFormed = true ∧ encode i = bs)

/-- R64: the decoder is total on the 256 values of `CMD`, each a row of R52 or reserved. -/
def Obligations.CommandDecodeTotal : Prop :=
  ∀ c : Byte,
    (c ∈ [0x00#8, 0x01#8, 0x02#8, 0x03#8, 0x04#8, 0x10#8, 0x11#8, 0x12#8] →
      ∃ i, decode [c] = .ok i ∧ encode i = [c]) ∧
    (c ∉ [0x00#8, 0x01#8, 0x02#8, 0x03#8, 0x04#8, 0x10#8, 0x11#8, 0x12#8] →
      decode [c] = .error .reservedCommand)

/-- R61: a reserved command raises `ILLEGAL_COMMAND`; it reads no port, and beyond `STATUS` (and the port `CMD` the
host wrote) nothing is written. -/
def Obligations.ReservedCommandFaults : Prop :=
  ∀ (s : State) (c : Byte) (rest : List Event), s.running → s.pending = .command c :: rest →
    ((0x05#8 ≤ c ∧ c ≤ 0x0F#8) ∨ (0x13#8 ≤ c ∧ c ≤ 0x1F#8) ∨ 0x20#8 ≤ c) →
    ∃ v, step s = .next { s with pending := rest, cmd := c, status := v } ∧ recordsFault s.status v 1#4

/-- A step runs the decoded instruction. First clause: the host's write of a command byte is taken from its program,
the byte stands at `CMD`, and the step is `exec` of what it decodes to (R17, R51). Second clause, the MODEL's reading
(assumption 10) and no rule's: the event `tableLoad` runs the three bytes of an LGDT as a step of its own. -/
def Obligations.StepRunsDecoded : Prop :=
  (∀ (s : State) (c : Byte) (rest : List Event) (i : Instr),
    s.pending = .command c :: rest → decode [c] = .ok i →
    step s = exec i { s with pending := rest, cmd := c }) ∧
  (∀ (s : State) (b0 b1 b2 : Byte) (rest : List Event) (i : Instr),
    s.pending = .tableLoad b0 b1 b2 :: rest → decode [b0, b1, b2] = .ok i →
    step s = exec i { s with pending := rest })

/-! ### segment_descriptor_codec -/

/-- R66: NOP, `CMD = 0x00`, changes nothing; a Faulted block does not accept it. -/
def Obligations.NopChangesNothing : Prop :=
  decode [0x00#8] = .ok .nop ∧
  (∀ s : State, s.running → exec .nop s = .next s) ∧
  (∀ s : State, s.faulted = true → exec .nop s = .fault .halted)

/-- R67: ENCODE, `CMD = 0x01`, writes `RES` with the closed form of the rule and writes nothing else; on a running
block it never fails. -/
def Obligations.EncodeWritesClosedForm : Prop :=
  decode [0x01#8] = .ok .encode ∧
  ∀ s : State, s.running →
    ∃ (lim20 : Word) (flags : BitVec 4),
      (s.limitIn ≤ 65536#32 → lim20 = s.limitIn ∧ flags = 0x4#4) ∧
      (65536#32 < s.limitIn → flags = 0xC#4 ∧
        (s.limitIn &&& 0xFFF#32 ≠ 0xFFF#32 → lim20 = (s.limitIn >>> 12) - 1#32) ∧
        (s.limitIn &&& 0xFFF#32 = 0xFFF#32 → lim20 = s.limitIn >>> 12)) ∧
      exec .encode s = .next { s with res := some (
        ((s.baseIn >>> 24).setWidth 64 <<< 56) ||| (flags.setWidth 64 <<< 52)
          ||| (((lim20 >>> 16) &&& 0xF#32).setWidth 64 <<< 48) ||| (s.accessIn.setWidth 64 <<< 40)
          ||| ((s.baseIn &&& 0xFFFFFF#32).setWidth 64 <<< 16) ||| (lim20 &&& 0xFFFF#32).setWidth 64) }

/-- R72: the encoder's arithmetic neither wraps nor truncates. In numbers: the byte branch gives the limit, at most
0x10000; the page branch gives `limit / 4096` less 0 or 1, at least 15; both fit the 20-bit field, and the record's
raw limit is that number whole. -/
def Obligations.EncodeArithmeticExact : Prop :=
  ∀ (base limit : Word) (t : Byte),
    (limit ≤ 65536#32 → (encodeLimit limit).toNat = limit.toNat ∧ (encodeLimit limit).toNat ≤ 0x10000) ∧
    (65536#32 < limit →
      16 ≤ limit.toNat / 4096 ∧ limit.toNat / 4096 ≤ 0xFFFFF ∧ 15 ≤ (encodeLimit limit).toNat ∧
      (limit.toNat % 4096 ≠ 4095 → (encodeLimit limit).toNat + 1 = limit.toNat / 4096) ∧
      (limit.toNat % 4096 = 4095 → (encodeLimit limit).toNat = limit.toNat / 4096)) ∧
    (encodeLimit limit).toNat ≤ 0xFFFFF ∧
    recRawLimit (encodeRecord base limit t) = encodeLimit limit

/-- R70: ENCODE places `lim20[15:0]` in bytes 0 and 1, `lim20[19:16]` in the low nibble of byte 6 below the flags
nibble, the base in bytes 2, 3, 4 and 7 in order of significance, and the access byte in byte 5. -/
def Obligations.EncodePlacesFields : Prop :=
  ∀ s : State, s.running →
    ∃ r, exec .encode s = .next { s with res := some r } ∧
      recByte r 0 = (encodeLimit s.limitIn).extractLsb' 0 8 ∧
      recByte r 1 = (encodeLimit s.limitIn).extractLsb' 8 8 ∧
      (recByte r 6).extractLsb' 0 4 = (encodeLimit s.limitIn).extractLsb' 16 4 ∧
      (recByte r 6).extractLsb' 4 4 = flagsNibble s.limitIn ∧
      recByte r 2 = s.baseIn.extractLsb' 0 8 ∧ recByte r 3 = s.baseIn.extractLsb' 8 8 ∧
      recByte r 4 = s.baseIn.extractLsb' 16 8 ∧ recByte r 7 = s.baseIn.extractLsb' 24 8 ∧
      recByte r 5 = s.accessIn

/-- R24: every record ENCODE produces has flags nibble 0x4 when byte granular and 0xC when page granular, so byte 6
has bit 6 set, bits 5 and 4 clear, and bit 7 equal to the granularity. -/
def Obligations.EncodedFlagsNibble : Prop :=
  ∀ s : State, s.running →
    ∃ r, exec .encode s = .next { s with res := some r } ∧
      (s.limitIn ≤ 65536#32 → (recByte r 6).extractLsb' 4 4 = 0x4#4) ∧
      (65536#32 < s.limitIn → (recByte r 6).extractLsb' 4 4 = 0xC#4) ∧
      (recByte r 6).getLsbD 6 = true ∧ (recByte r 6).getLsbD 5 = false ∧ (recByte r 6).getLsbD 4 = false ∧
      (recByte r 6).getLsbD 7 = decide (65536#32 < s.limitIn)

/-- R74: DECODE_BASE, `CMD = 0x02`, writes `RES` with bytes 7, 4, 3, 2 of `REC_IN`, zero extended, and nothing else. -/
def Obligations.DecodeBaseResult : Prop :=
  decode [0x02#8] = .ok .decodeBase ∧
  ∀ s : State, s.running →
    exec .decodeBase s = .next { s with res := some (BitVec.ofNat 64
      (s.recIn.toNat / 2 ^ 56 * 2 ^ 24 + s.recIn.toNat / 2 ^ 16 % 2 ^ 24)) }

/-- R75: DECODE_LIMIT, `CMD = 0x03`, writes `RES` with the raw limit, or with `raw * 4096 + 4095` when bits 55 and 54
of `REC_IN` are both 1, and writes nothing else. -/
def Obligations.DecodeLimitResult : Prop :=
  decode [0x03#8] = .ok .decodeLimit ∧
  ∀ (s : State) (raw : Nat), s.running →
    raw = s.recIn.toNat / 2 ^ 48 % 16 * 65536 + s.recIn.toNat % 65536 →
    (s.recIn.getLsbD 55 = true ∧ s.recIn.getLsbD 54 = true →
      exec .decodeLimit s = .next { s with res := some (BitVec.ofNat 64 (raw * 4096 + 4095)) }) ∧
    (¬ (s.recIn.getLsbD 55 = true ∧ s.recIn.getLsbD 54 = true) →
      exec .decodeLimit s = .next { s with res := some (BitVec.ofNat 64 raw) })

/-- R77: DECODE_GRAN, `CMD = 0x04`, writes `RES` with 1 when bits 55 and 54 of `REC_IN` are both 1, else with 0, and
writes nothing else. -/
def Obligations.DecodeGranResult : Prop :=
  decode [0x04#8] = .ok .decodeGran ∧
  ∀ s : State, s.running →
    exec .decodeGran s = .next { s with res := some (
      if s.recIn.getLsbD 55 = true ∧ s.recIn.getLsbD 54 = true then 1#64 else 0#64) }

/-- R76: decode reads a record as page granular exactly when its flags nibble is 0xC to 0xF, as byte granular when it
is 0x0 to 0xB, and on every record ENCODE produces it reads the granularity ENCODE chose. -/
def Obligations.GranularityNeedsBothBits : Prop :=
  (∀ r : Record, recPageGranular r = decide (0xC#4 ≤ r.extractLsb' 52 4)) ∧
  (∀ (base limit : Word) (t : Byte), recPageGranular (encodeRecord base limit t) = decide (65536#32 < limit))

/-- R78: for a limit up to 65536, DECODE_LIMIT of the encoded record gives the limit exactly, and DECODE_GRAN 0. -/
def Obligations.ByteGranularRoundTrip : Prop :=
  ∀ s : State, s.running → s.limitIn ≤ 65536#32 →
    ∃ r, exec .encode s = .next { s with res := some r } ∧
      exec .decodeLimit { s with recIn := r } =
        .next { s with recIn := r, res := some (s.limitIn.setWidth 64) } ∧
      exec .decodeGran { s with recIn := r } = .next { s with recIn := r, res := some 0#64 }

/-- R79: for a limit above 65536, DECODE_LIMIT of the encoded record gives the limit when its low 12 bits are all set
and `limit - limit % 4096 - 1` otherwise, a value in `[limit - 4095, limit]`, and DECODE_GRAN gives 1. -/
def Obligations.PageGranularRoundsDown : Prop :=
  ∀ s : State, s.running → 65536#32 < s.limitIn →
    ∃ (r : Record) (d : Nat), exec .encode s = .next { s with res := some r } ∧
      (s.limitIn.toNat % 4096 = 4095 → d = s.limitIn.toNat) ∧
      (s.limitIn.toNat % 4096 ≠ 4095 → d + s.limitIn.toNat % 4096 + 1 = s.limitIn.toNat) ∧
      s.limitIn.toNat ≤ d + 4095 ∧ d ≤ s.limitIn.toNat ∧
      exec .decodeLimit { s with recIn := r } =
        .next { s with recIn := r, res := some (BitVec.ofNat 64 d) } ∧
      exec .decodeGran { s with recIn := r } = .next { s with recIn := r, res := some 1#64 }

/-- R80: DECODE_BASE of the encoded record gives the base exactly, for every base, limit and access byte. -/
def Obligations.BaseRoundTrip : Prop :=
  ∀ s : State, s.running →
    ∃ r, exec .encode s = .next { s with res := some r } ∧
      exec .decodeBase { s with recIn := r } =
        .next { s with recIn := r, res := some (s.baseIn.setWidth 64) }

/-- R81, first half: ENCODE is injective in the base and in the access byte, and not in the limit: in the page range,
limits of one 4 KiB unit whose low 12 bits are not all set share a record, and so does `k*4096 + 4095` with the limits
of the next unit. -/
def Obligations.EncodeInjectivity : Prop :=
  (∀ (b b' l l' : Word) (t t' : Byte), encodeRecord b l t = encodeRecord b' l' t' → b = b' ∧ t = t') ∧
  (∀ (b l l' : Word) (t : Byte), 65536#32 < l → 65536#32 < l' →
    l.toNat / 4096 = l'.toNat / 4096 → l.toNat % 4096 ≠ 4095 → l'.toNat % 4096 ≠ 4095 →
    encodeRecord b l t = encodeRecord b l' t) ∧
  (∀ (b l l' : Word) (t : Byte), 65536#32 < l → 65536#32 < l' →
    l.toNat % 4096 = 4095 → l'.toNat / 4096 = l.toNat / 4096 + 1 → l'.toNat % 4096 ≠ 4095 →
    encodeRecord b l t = encodeRecord b l' t)

/-- R81, second half: re-encoding a decoded record gives the record back, except for the page-granular records with
raw limit 15, which come from the limits 0x10001 to 0x10FFE, decode to 0xFFFF, and re-encode byte granular with raw
limit 0xFFFF. -/
def Obligations.ReencodeDecodedRecord : Prop :=
  ∀ (b l : Word) (t : Byte) (r : Record), r = encodeRecord b l t →
    ((0x10001#32 ≤ l ∧ l ≤ 0x10FFE#32) ↔ (recPageGranular r = true ∧ recRawLimit r = 15#32)) ∧
    (¬ (0x10001#32 ≤ l ∧ l ≤ 0x10FFE#32) →
      encodeRecord (recBase r) (decodeLimitOf r) (recAccess r) = r) ∧
    ((0x10001#32 ≤ l ∧ l ≤ 0x10FFE#32) →
      decodeLimitOf r = 0xFFFF#32 ∧
      recRawLimit (encodeRecord (recBase r) (decodeLimitOf r) (recAccess r)) = 0xFFFF#32 ∧
      recPageGranular (encodeRecord (recBase r) (decodeLimitOf r) (recAccess r)) = false)

/-- R83: the codec's results depend on the ports their rules name and on nothing else: two running blocks that agree on
those ports write the same `RES`, whatever their lifecycle, memory and `GDTR`. -/
def Obligations.CodecDependsOnPortsOnly : Prop :=
  ∀ s s' : State, s.running → s'.running →
    (s.baseIn = s'.baseIn → s.limitIn = s'.limitIn → s.accessIn = s'.accessIn →
      ∃ v, exec .encode s = .next { s with res := some v } ∧ exec .encode s' = .next { s' with res := some v }) ∧
    (s.recIn = s'.recIn →
      (∃ v, exec .decodeBase s = .next { s with res := some v } ∧
        exec .decodeBase s' = .next { s' with res := some v }) ∧
      (∃ v, exec .decodeLimit s = .next { s with res := some v } ∧
        exec .decodeLimit s' = .next { s' with res := some v }) ∧
      (∃ v, exec .decodeGran s = .next { s with res := some v } ∧
        exec .decodeGran s' = .next { s' with res := some v }))

/-! ### descriptor_table_loader -/

/-- R87, R88, R91: a CONSTRUCT that raises no fault writes, in one step, the 32 table bytes and no other, `PD`, `GDTR`
and `STATUS.LIFE`, and turns the mutation watch on; nothing else changes, `RES` included. -/
def Obligations.ConstructInstalls : Prop :=
  decode [0x10#8] = .ok .construct ∧
  ∀ s : State, s.running → ¬ s.installed → s.tableBase ≤ 0xFFFFFFE0#32 → s.cpl0 = true →
    ∃ (m : Memory) (v : Byte),
      exec .construct s = .next { s with
        mem := m, pd := (s.tableBase.setWidth 48 <<< 16) ||| 0x001F#48, gdtr := ⟨0x001F#16, s.tableBase⟩,
        status := v, watch := true } ∧
      lifeField v = 2#2 ∧ faultField v = faultField s.status ∧ causeField v = causeField s.status ∧
      reservedField v = reservedField s.status ∧
      holdsTable m s.tableBase ∧ sameOutsideTable s.mem m s.tableBase

/-- R85, the first two checks: an Installed table gives `ALREADY_INSTALLED` whatever the base and the privilege, and
otherwise a base above 0xFFFFFFE0 gives `TABLE_REGION_WRAP`; nothing else is written. -/
def Obligations.ConstructChecksInOrder : Prop :=
  (∀ s : State, s.running → s.installed →
    ∃ v, exec .construct s = .next { s with status := v } ∧ recordsFault s.status v 3#4) ∧
  (∀ s : State, s.running → ¬ s.installed → 0xFFFFFFE0#32 < s.tableBase →
    ∃ v, exec .construct s = .next { s with status := v } ∧ recordsFault s.status v 5#4)

/-- R90: without privilege the install step raises `PRIVILEGE_VIOLATION` instead of writing `GDTR`: the four entries
stay written and `PD` formed, `GDTR` and `LIFE` keep their values, and the watch stays as it was. -/
def Obligations.ConstructWithoutPrivilege : Prop :=
  ∀ s : State, s.running → ¬ s.installed → s.tableBase ≤ 0xFFFFFFE0#32 → s.cpl0 = false →
    ∃ (m : Memory) (v : Byte),
      exec .construct s = .next { s with
        mem := m, pd := (s.tableBase.setWidth 48 <<< 16) ||| 0x001F#48, status := v } ∧
      recordsFault s.status v 4#4 ∧ holdsTable m s.tableBase ∧ sameOutsideTable s.mem m s.tableBase

/-- R38: CONSTRUCT is atomic. After it, either memory and `GDTR` are as before and a fault is recorded, or the whole
table is in memory, and then `GDTR` names it and the lifecycle is Installed, or `PRIVILEGE_VIOLATION` is recorded with
`GDTR` and the lifecycle as before (R90). -/
def Obligations.ConstructIsAtomic : Prop :=
  ∀ s t : State, exec .construct s = .next t →
    (t.mem = s.mem ∧ t.gdtr = s.gdtr ∧ t.life = s.life ∧ t.faulted = true) ∨
    (holdsTable t.mem s.tableBase ∧ sameOutsideTable s.mem t.mem s.tableBase ∧
      ((t.gdtr = ⟨31#16, s.tableBase⟩ ∧ t.installed ∧ t.faulted = false) ∨
       (t.gdtr = s.gdtr ∧ t.life = s.life ∧ t.faulted = true ∧ t.cause = 4#4)))

/-- R95, R96: once Installed, CODE_SEL (`CMD = 0x11`) writes 16 to `RES` and DATA_SEL (`CMD = 0x12`) writes 24, and
nothing else; before that they raise `NOT_INSTALLED` and write nothing else. -/
def Obligations.SelectorQueries : Prop :=
  decode [0x11#8] = .ok .codeSel ∧ decode [0x12#8] = .ok .dataSel ∧
  (∀ s : State, s.running → s.installed →
    exec .codeSel s = .next { s with res := some 0x0010#64 } ∧
    exec .dataSel s = .next { s with res := some 0x0018#64 }) ∧
  (∀ s : State, s.running → ¬ s.installed →
    (∃ v, exec .codeSel s = .next { s with status := v } ∧ recordsFault s.status v 2#4) ∧
    (∃ v, exec .dataSel s = .next { s with status := v } ∧ recordsFault s.status v 2#4))

/-- R97, R98: on a running block with the table installed, CODE_SEL returns 16 and DATA_SEL returns 24; the two differ
and are non-zero multiples of 8; and each is its own entry's byte offset: the 8 bytes of memory at `TABLE_BASE + RES`
are the code entry's after CODE_SEL and the data entry's after DATA_SEL (the bytes of R94, in every state that meets
the invariant). -/
def Obligations.SelectorsNameTheirEntries : Prop :=
  ∀ s : State, s.Inv → s.running → s.installed →
    ∃ rc rd : Record,
      exec .codeSel s = .next { s with res := some rc } ∧ exec .dataSel s = .next { s with res := some rd } ∧
      rc = 0x0010#64 ∧ rd = 0x0018#64 ∧ rc ≠ rd ∧ rc ≠ 0#64 ∧ rd ≠ 0#64 ∧ rc.toNat % 8 = 0 ∧ rd.toNat % 8 = 0 ∧
      memRead s.mem (s.tableBase.toNat + rc.toNat) 8 =
        [some 0xFF#8, some 0x3F#8, some 0x00#8, some 0x00#8, some 0x00#8, some 0x9A#8, some 0xC0#8, some 0x00#8] ∧
      memRead s.mem (s.tableBase.toNat + rd.toNat) 8 =
        [some 0xFF#8, some 0x3F#8, some 0x00#8, some 0x00#8, some 0x00#8, some 0x92#8, some 0xC0#8, some 0x00#8]

/-- LGDT on its own, with privilege: `GDTR` takes `PD`, LIMIT from bits 15:0 and BASE from bits 47:16, for every
addressing form that names memory; nothing else changes, the lifecycle and the watch included. R60 and R89 give the
load as CONSTRUCT dispatches it; that LGDT on its own does it too, whatever its addressing form, and leaves the
lifecycle, is the MODEL's reading (assumption 10). That it loads on an Installed block too, and again if run twice,
without `ALREADY_INSTALLED`, is the MODEL's choice (assumption 23). -/
def Obligations.TableLoadWritesGdtr : Prop :=
  ∀ (s : State) (mod : BitVec 2) (rm : BitVec 3), s.running → s.cpl0 = true → mod ≠ 0b11#2 →
    exec (.lgdt mod rm) s =
      .next { s with gdtr := ⟨BitVec.ofNat 16 s.pd.toNat, BitVec.ofNat 32 (s.pd.toNat / 65536)⟩ }

/-- LGDT on its own, where it does not load, by the MODEL's reading. Without privilege it raises `PRIVILEGE_VIOLATION`
and writes nothing else: R90 gives that fault to CONSTRUCT's install step, and that LGDT on its own takes it too is
assumption 10, and that it does so on an Installed block too, with no `ALREADY_INSTALLED`, is assumption 23. With
ModRM.mod = 11, which R60 does not admit, it is refused by name (assumption 12). -/
def Obligations.TableLoadTrapsOrStops : Prop :=
  (∀ (s : State) (mod : BitVec 2) (rm : BitVec 3), s.running → s.cpl0 = false → mod ≠ 0b11#2 →
    ∃ v, exec (.lgdt mod rm) s = .next { s with status := v } ∧ recordsFault s.status v 4#4) ∧
  (∀ (s : State) (rm : BitVec 3), exec (.lgdt 0b11#2 rm) s = .refused .registerOperand)

/-! ### Frames over all instructions -/

/-- What no instruction changes, and what each family leaves alone (R30): the ports, the model arguments and the host's
side never change; memory, `PD` and the watch change only in CONSTRUCT, `GDTR` only in CONSTRUCT and LGDT; NOP,
CONSTRUCT and LGDT leave `RES`; and an instruction that leaves the block running changes `STATUS` only if it is
CONSTRUCT. R30's table has no row for LGDT: that LGDT on its own may change `GDTR` and leaves memory, `PD`, `RES`,
`LIFE` and the watch is the MODEL's reading (assumption 10). -/
def Obligations.InstructionFrames : Prop :=
  ∀ (i : Instr) (s t : State), exec i s = .next t →
    t.cmd = s.cmd ∧ t.baseIn = s.baseIn ∧ t.limitIn = s.limitIn ∧ t.accessIn = s.accessIn ∧ t.recIn = s.recIn ∧
    t.tableBase = s.tableBase ∧ t.cpl0 = s.cpl0 ∧ t.pending = s.pending ∧ t.hostSaw = s.hostSaw ∧
    (i ≠ .construct → t.mem = s.mem ∧ t.pd = s.pd ∧ t.watch = s.watch ∧ t.life = s.life ∧
      (t.running → t.status = s.status)) ∧
    (i ≠ .construct → (∀ mod rm, i ≠ .lgdt mod rm) → t.gdtr = s.gdtr) ∧
    ((i = .nop ∨ i = .construct ∨ ∃ mod rm, i = .lgdt mod rm) → t.res = s.res)

/-- Of the host's actions only an install and a reset change `GDTR`; and an install is the host's CONSTRUCT command on
a running, privileged block that is not yet Installed, and leaves `GDTR = {31, TABLE_BASE}` (R19, R89). The third way
the statement admits, the event `tableLoad`, is the MODEL's reading (assumption 10): R19 knows the install alone. -/
def Obligations.GdtrChangesOnlyAtInstall : Prop :=
  ∀ s t : State, step s = .next t → t.gdtr ≠ s.gdtr →
    s.resetsNext ∨ (∃ b0 b1 b2 rest, s.pending = .tableLoad b0 b1 b2 :: rest ∧ s.cpl0 = true) ∨
    (∃ rest, s.pending = .command 0x10#8 :: rest ∧ s.running ∧ ¬ s.installed ∧ s.cpl0 = true ∧
      s.tableBase ≤ 0xFFFFFFE0#32 ∧ t.gdtr = ⟨31#16, s.tableBase⟩)

/-- A byte of memory changes only at a reset, by a host write that covers it, or in the table region by CONSTRUCT on a
block that is not yet Installed (R36, R37, R101; that a reset forgets memory is the model's reading, assumption 7, and
so is that LGDT on its own writes none, assumption 10). -/
def Obligations.MemoryChangesOnlyWhereWritten : Prop :=
  ∀ (s t : State) (a : Nat), step s = .next t → memGet t.mem a ≠ memGet s.mem a →
    s.resetsNext ∨
    (∃ addr n v rest, s.pending = .hostWrite addr n v :: rest ∧ addr.toNat ≤ a ∧ a < addr.toNat + n) ∨
    (∃ rest, s.pending = .command 0x10#8 :: rest ∧ ¬ s.installed ∧
      s.tableBase.toNat ≤ a ∧ a < s.tableBase.toNat + 32)

/-- R111: every instruction but CONSTRUCT and the table load it dispatches does the same at either privilege, and no
step but a reset changes `CPL0` (that a reset inside a run may is the model's reading, assumption 7). -/
def Obligations.PrivilegeMattersOnlyAtInstall : Prop :=
  (∀ (i : Instr) (s t : State) (b : Bool), i ≠ .construct → (∀ mod rm, i ≠ .lgdt mod rm) →
    exec i s = .next t → exec i { s with cpl0 := b } = .next { t with cpl0 := b }) ∧
  (∀ s t : State, step s = .next t → ¬ s.resetsNext → t.cpl0 = s.cpl0)

/-! ### Faults -/

/-- R102, R106, R107: when a step takes a running block into the Faulted state, `LIFE` is unchanged and the recorded
cause is the one whose condition held: one fault, named by what was asked and of what state, CONSTRUCT's three in the
order of R85. That the event `tableLoad` may take cause 4 too is the MODEL's reading (assumption 10): R102 gives that
cause to CONSTRUCT alone. -/
def Obligations.FaultCauseNamesItsCondition : Prop :=
  ∀ s t : State, s.running → step s = .next t → t.faulted = true →
    t.life = s.life ∧
    ((t.cause = 1#4 ∧ ∃ c rest e, s.pending = .command c :: rest ∧ decode [c] = .error e) ∨
     (t.cause = 2#4 ∧ ¬ s.installed ∧
       ∃ rest, s.pending = .command 0x11#8 :: rest ∨ s.pending = .command 0x12#8 :: rest) ∨
     (t.cause = 3#4 ∧ s.installed ∧ ∃ rest, s.pending = .command 0x10#8 :: rest) ∨
     (t.cause = 4#4 ∧ s.cpl0 = false ∧ ¬ s.installed ∧ s.tableBase ≤ 0xFFFFFFE0#32 ∧
       ∃ rest, s.pending = .command 0x10#8 :: rest) ∨
     (t.cause = 4#4 ∧ s.cpl0 = false ∧ ∃ b0 b1 b2 rest, s.pending = .tableLoad b0 b1 b2 :: rest ∧
       ∃ mod rm, decode [b0, b1, b2] = .ok (.lgdt mod rm)) ∨
     (t.cause = 5#4 ∧ 0xFFFFFFE0#32 < s.tableBase ∧ ¬ s.installed ∧
       ∃ rest, s.pending = .command 0x10#8 :: rest) ∨
     (t.cause = 6#4 ∧ s.watch = true ∧ ∃ addr n v rest, s.pending = .hostWrite addr n v :: rest ∧
       ∃ k < n, s.tableBase.toNat ≤ addr.toNat + k ∧ addr.toNat + k < s.tableBase.toNat + 32) ∨
     (t.cause = 7#4 ∧ s.res = none ∧ ∃ rest, s.pending = .readRes :: rest))

/-- R108: a Faulted block accepts no instruction, and of the host's actions only `READ STATUS` (which returns it),
`READ RES` (which returns no value) and reset have a step; there is none with nothing to come either. That `SET`,
`HOSTWRITE` and `HOSTREAD` are among the actions with no step is the model's reading (assumption 8), and so is that
LGDT on its own is among the instructions it does not accept (assumption 10). -/
def Obligations.FaultedAcceptsNothing : Prop :=
  ∀ s : State, s.faulted = true →
    (∀ i : Instr, i.wellFormed = true → exec i s = .fault .halted) ∧
    (s.pending = [] → step s = .fault .halted) ∧
    (∀ e rest, s.pending = e :: rest →
      (e = .readStatus → step s = .next { s with pending := rest, hostSaw := some (.status s.status) }) ∧
      (e = .readRes → step s = .next { s with pending := rest, hostSaw := none }) ∧
      (∀ p, e = .reset p → ∃ t, step s = .next t ∧ t.faulted = false) ∧
      (e ≠ .readStatus → e ≠ .readRes → (∀ p, e ≠ .reset p) → ∀ t, step s ≠ .next t))

/-- Between resets the Faulted state and the Installed lifecycle are permanent (R119, R21): no step but a reset leaves
them; the first cause stays recorded (R106), since a Faulted block has no step that changes it (R108); and `TABLE_BASE`
stays for the run (R118). That a Faulted block's ports and linear memory stay too rests on the MODEL's reading that
SET and HOSTWRITE then have no step (assumption 8). -/
def Obligations.FaultedAndInstalledPermanent : Prop :=
  ∀ s t : State, step s = .next t → ¬ s.resetsNext →
    (s.faulted = true → t = { s with pending := t.pending, hostSaw := t.hostSaw }) ∧
    (s.installed → t.installed) ∧
    t.tableBase = s.tableBase

/-! ### The host's actions -/

/-- R11, R50: `HOSTWRITE` inside the address space on a running block stores the low `n` bytes of the value, least
significant first, leaves every other byte, and takes `TABLE_MUTATED` exactly when the watch is on and a written byte
lies in the table region; nothing else changes (that `n` and the value have no bound is assumption 19). -/
def Obligations.HostWriteStores : Prop :=
  ∀ (s : State) (addr : Word) (n v : Nat) (rest : List Event), s.running →
    s.pending = .hostWrite addr n v :: rest → addr.toNat + n ≤ 4294967296 →
    ∃ (m : Memory) (st : Byte), step s = .next { s with pending := rest, mem := m, status := st } ∧
      (∀ k < n, memGet m (addr.toNat + k) = some (BitVec.ofNat 8 (v / 256 ^ k))) ∧
      (∀ a, a < addr.toNat ∨ addr.toNat + n ≤ a → memGet m a = memGet s.mem a) ∧
      ((s.watch = true ∧
          ∃ k < n, s.tableBase.toNat ≤ addr.toNat + k ∧ addr.toNat + k < s.tableBase.toNat + 32) →
        recordsFault s.status st 6#4) ∧
      (¬ (s.watch = true ∧
          ∃ k < n, s.tableBase.toNat ≤ addr.toNat + k ∧ addr.toNat + k < s.tableBase.toNat + 32) →
        st = s.status)

/-- R11, R39: `HOSTREAD` inside the address space on a running block returns each byte memory holds (no value where it
holds none, assumption 6) and changes nothing else. -/
def Obligations.HostReadReturnsMemory : Prop :=
  ∀ (s : State) (addr : Word) (n : Nat) (rest : List Event), s.running →
    s.pending = .hostRead addr n :: rest → addr.toNat + n ≤ 4294967296 →
    ∃ bs, step s = .next { s with pending := rest, hostSaw := some (.memory bs) } ∧
      bs.length = n ∧ ∀ k < n, bs[k]? = some (memGet s.mem (addr.toNat + k))

/-- A host access that would pass address 2^32 - 1 stops the model, and writes nothing (R28; the model's choice,
assumption 13). -/
def Obligations.HostAccessPastTopStops : Prop :=
  ∀ (s : State) (addr : Word) (n v : Nat) (rest : List Event), s.running →
    4294967296 < addr.toNat + n →
    (s.pending = .hostWrite addr n v :: rest ∨ s.pending = .hostRead addr n :: rest) →
    step s = .fault .outsideAddressSpace

/-- R16, R20, R128: `READ STATUS` returns `STATUS` in every state; on a running block `READ RES` returns `RES`, and
before any command has written it raises `READ_UNWRITTEN` and returns no value. -/
def Obligations.HostReadsRegisters : Prop :=
  ∀ (s : State) (rest : List Event),
    (s.pending = .readStatus :: rest →
      step s = .next { s with pending := rest, hostSaw := some (.status s.status) }) ∧
    (∀ v, s.running → s.pending = .readRes :: rest → s.res = some v →
      step s = .next { s with pending := rest, hostSaw := some (.res v) }) ∧
    (s.running → s.pending = .readRes :: rest → s.res = none →
      ∃ st, step s = .next { s with pending := rest, hostSaw := none, status := st } ∧
        recordsFault s.status st 7#4)

/-- R18: each `SET` line writes its own port and nothing else. -/
def Obligations.SetWritesItsPort : Prop :=
  ∀ (s : State) (rest : List Event), s.running →
    (∀ v, s.pending = .setBaseIn v :: rest → step s = .next { s with pending := rest, baseIn := v }) ∧
    (∀ v, s.pending = .setLimitIn v :: rest → step s = .next { s with pending := rest, limitIn := v }) ∧
    (∀ v, s.pending = .setAccessIn v :: rest → step s = .next { s with pending := rest, accessIn := v }) ∧
    (∀ v, s.pending = .setRecIn v :: rest → step s = .next { s with pending := rest, recIn := v })

/-- With no host action to come a running block waits, unchanged (R118: after reset it waits for the host's first
command; the model's reading, assumption 9). -/
def Obligations.IdleBlockWaits : Prop :=
  ∀ s : State, s.running → s.pending = [] → step s = .next s

/-- R11, R9: what `MemWrite` stores, `MemRead` reads back as the same number, least significant byte first. -/
def Obligations.MemWriteReadsBack : Prop :=
  ∀ (m : Memory) (a n v : Nat), leNumber (memRead (memWrite m a n v) a n) = some (v % 256 ^ n)

/-- R32: the table in memory holds each record in its byte order. Every running block with the table installed (in
every state that meets the invariant), and every block whose table bytes are intact, reads it so: a byte at
`TABLE_BASE + 8*i + j` is `E[i].b[j]`, a read inside an entry returns that entry's bytes in order, and a 64-bit
little-endian read of an entry returns its 64-bit view. -/
def Obligations.TableReadsInRecordOrder : Prop :=
  (∀ s : State, s.Inv → s.running → s.installed → s.tableReadsInOrder) ∧
  (∀ s : State, s.tableIntact → s.tableReadsInOrder)

/-! ### Reset and invariants -/

/-- R118: what reset leaves where the rule says it: `STATUS` 0x00, `RES` unwritten, the watch off, no byte of the table
region with a value, and `GDTR` and the model arguments as the run's arguments say. That no byte of memory OUTSIDE the
table region has a value either is the MODEL's choice (assumption 6). -/
def Obligations.ResetLeavesSpecValues : Prop :=
  ∀ p : Params, (State.resetWith p).status = 0x00#8 ∧ (State.resetWith p).res = none ∧
    (State.resetWith p).gdtr = p.gdtrInit ∧ (State.resetWith p).watch = false ∧
    (State.resetWith p).tableBase = p.tableBase ∧ (State.resetWith p).cpl0 = p.cpl0 ∧
    (∀ a, memGet (State.resetWith p).mem a = none) ∧ State.reset = State.resetWith Config.params

/-- R119: reset leaves every state, Faulted included, for the state of R118 with the arguments it takes. Of that state
these are the MODEL's: that all of memory is forgotten, that `TABLE_BASE` and `CPL0` are taken afresh as `GDTR_INIT` is,
and that the host's program goes on (assumption 7); and that the ports and `PD` hold one constant each, the same after
every reset (assumptions 3 and 4, unsafe). -/
def Obligations.ResetLeavesEveryState : Prop :=
  ∀ (s : State) (p : Params) (rest : List Event), s.pending = .reset p :: rest →
    step s = .next { State.resetWith p with pending := rest }

/-- The invariant holds right after reset, whatever the model arguments. -/
def Obligations.ResetMeetsInv : Prop :=
  State.reset.Inv ∧ ∀ p : Params, (State.resetWith p).Inv

/-- THE MACHINE KEEPS ITS INVARIANT: from every state that meets it, whatever the host does next, the next state meets
it. So `STATUS` stays legal (R20), memory canonical, the watch on exactly while Installed (R50, R118), and from install
until reset `GDTR` and `PD` name the table (R19, R58), the region does not wrap (R35), and its 32 bytes are those of
R94 unless a write to them has been recorded (R26, R50). Among the steps are the MODEL's own: LGDT on its own
(assumption 10), and a reset with any arguments (assumption 7). -/
def Obligations.StepKeepsInv : Prop :=
  ∀ s t : State, s.Inv → step s = .next t → t.Inv

/-- R20: a legal `STATUS` stays legal at every step: `LIFE` 1 and 3, `CAUSE` 8 to 15 and bit 7 are never produced, and
`CAUSE` is 0 exactly when `FAULT` is 0. -/
def Obligations.StatusStaysLegal : Prop :=
  ∀ s t : State, statusLegal s.status → step s = .next t → statusLegal t.status

/-- Memory in canonical form stays so at every step. -/
def Obligations.MemoryStaysCanonical : Prop :=
  ∀ s t : State, Memory.wf s.mem → step s = .next t → Memory.wf t.mem
end

