-- ==== Sys2Proof/Laws/Memory.lean ====
section
/-!
SUPPORT. The laws of linear memory: a read after a write, what a write leaves alone, and that every operation keeps
the canonical form. The read laws need no canonical form.
-/

namespace Sys2Proof.Machine

@[simp] theorem memGet_nil (a : Nat) : memGet [] a = none := rfl

@[simp] theorem leBytes_length (n v : Nat) : (leBytes n v).length = n := by
  induction n generalizing v with
  | zero => rfl
  | succ n ih => simp [leBytes, ih]

/-- Byte `i` of a number laid out least significant byte first. -/
theorem leBytes_getElem? (n v i : Nat) (h : i < n) :
    (leBytes n v)[i]? = some (BitVec.ofNat 8 (v / 256 ^ i)) := by
  induction n generalizing v i with
  | zero => omega
  | succ n ih =>
    cases i with
    | zero => simp [leBytes]
    | succ i =>
      rw [leBytes, List.getElem?_cons_succ, ih _ _ (by omega), Nat.div_div_eq_div_mul, pow_succ, Nat.mul_comm]

/-- A read of the byte just written gives it; every other byte reads as before. -/
theorem memGet_memSet (m : Memory) (a b : Nat) (v : Byte) :
    memGet (memSet m a v) b = if b = a then some v else memGet m b := by
  induction m with
  | nil => by_cases h : b = a <;> simp [memSet, memGet, h]
  | cons c m ih =>
    obtain ⟨k, w⟩ := c
    rcases Nat.lt_trichotomy a k with h | h | h
    · simp only [memSet, h, if_true, memGet]
    · subst h
      by_cases hb : b = a <;> simp [memSet, memGet, hb]
    · have h1 : ¬ a < k := by omega
      have h2 : ¬ a = k := by omega
      simp only [memSet, h1, h2, if_false, memGet, ih]
      by_cases hb : b = a
      · simp [hb, h2]
      · simp [hb]

theorem memGet_memWriteBytes (m : Memory) (a b : Nat) (bs : List Byte) :
    memGet (memWriteBytes m a bs) b =
      if a ≤ b ∧ b < a + bs.length then bs[b - a]? else memGet m b := by
  induction bs generalizing m a with
  | nil =>
    have h : ¬ (a ≤ b ∧ b < a) := by omega
    simp [memWriteBytes, h]
  | cons v bs ih =>
    rw [memWriteBytes, ih, memGet_memSet]
    by_cases hb : b = a
    · subst hb; simp
    · by_cases hr : a + 1 ≤ b ∧ b < a + 1 + bs.length
      · have h2 : a ≤ b ∧ b < a + (v :: bs).length := by simp; omega
        have h3 : b - a = (b - (a + 1)) + 1 := by omega
        rw [if_pos hr, if_pos h2, h3, List.getElem?_cons_succ]
      · have h2 : ¬ (a ≤ b ∧ b < a + (v :: bs).length) := by simp; omega
        rw [if_neg hr, if_neg h2, if_neg hb]

/-- All that `MemWrite(a, n, v)` does to any read (R11). -/
theorem memGet_memWrite (m : Memory) (a n v b : Nat) :
    memGet (memWrite m a n v) b =
      if a ≤ b ∧ b < a + n then some (BitVec.ofNat 8 (v / 256 ^ (b - a))) else memGet m b := by
  rw [memWrite, memGet_memWriteBytes, leBytes_length]
  by_cases h : a ≤ b ∧ b < a + n
  · rw [if_pos h, if_pos h, leBytes_getElem? _ _ _ (by omega)]
  · rw [if_neg h, if_neg h]

@[simp] theorem memRead_length (m : Memory) (a n : Nat) : (memRead m a n).length = n := by
  induction n generalizing a with
  | zero => rfl
  | succ n ih => simp [memRead, ih]

/-- Byte `i` of `MemRead(a, n)` (R11). -/
theorem memRead_getElem? (m : Memory) (a n i : Nat) (h : i < n) :
    (memRead m a n)[i]? = some (memGet m (a + i)) := by
  induction n generalizing a i with
  | zero => omega
  | succ n ih =>
    cases i with
    | zero => simp [memRead]
    | succ i => rw [memRead, List.getElem?_cons_succ, ih _ _ (by omega), Nat.add_right_comm, Nat.add_assoc]

theorem memSet_mem (m : Memory) (a : Nat) (v : Byte) (c : Host.Cell) (h : c ∈ memSet m a v) :
    c = (a, v) ∨ c ∈ m := by
  induction m with
  | nil => exact Or.inl (by simpa [memSet] using h)
  | cons d m ih =>
    obtain ⟨k, w⟩ := d
    simp only [memSet] at h
    split at h
    · simpa using h
    · split at h
      · rcases List.mem_cons.mp h with h | h
        · exact Or.inl h
        · exact Or.inr (List.mem_cons_of_mem _ h)
      · rcases List.mem_cons.mp h with h | h
        · exact Or.inr (h ▸ List.mem_cons_self)
        · exact (ih h).imp id (List.mem_cons_of_mem _)

/-- A byte write at a linear address keeps the canonical form. -/
theorem memSet_wf (m : Memory) (a : Nat) (v : Byte) (hm : Memory.wf m) (ha : a < addressCount) :
    Memory.wf (memSet m a v) := by
  obtain ⟨hp, hb⟩ := hm
  refine ⟨?_, fun c hc => ?_⟩
  · clear hb
    induction m with
    | nil => simp [memSet]
    | cons d m ih =>
      obtain ⟨k, w⟩ := d
      obtain ⟨hk, hp⟩ := List.pairwise_cons.mp hp
      simp only [memSet]
      split
      · rename_i h
        refine List.pairwise_cons.mpr ⟨fun c hc => ?_, List.pairwise_cons.mpr ⟨hk, hp⟩⟩
        rcases List.mem_cons.mp hc with rfl | hc
        · exact h
        · exact Nat.lt_trans h (hk c hc)
      · split
        · rename_i h
          exact List.pairwise_cons.mpr ⟨fun c hc => h ▸ hk c hc, hp⟩
        · refine List.pairwise_cons.mpr ⟨fun c hc => ?_, ih hp⟩
          rcases memSet_mem m a v c hc with rfl | hc
          · simp only; omega
          · exact hk c hc
  · rcases memSet_mem m a v c hc with rfl | hc
    · exact ha
    · exact hb c hc

theorem memWriteBytes_wf (m : Memory) (a : Nat) (bs : List Byte) (hm : Memory.wf m)
    (ha : a + bs.length ≤ addressCount) : Memory.wf (memWriteBytes m a bs) := by
  induction bs generalizing m a with
  | nil => exact hm
  | cons v bs ih =>
    simp only [List.length_cons] at ha
    exact ih _ _ (memSet_wf m a v hm (by omega)) (by omega)

/-- `MemWrite` inside the address space keeps the canonical form. -/
theorem memWrite_wf (m : Memory) (a n v : Nat) (hm : Memory.wf m) (ha : a + n ≤ addressCount) :
    Memory.wf (memWrite m a n v) :=
  memWriteBytes_wf m a _ hm (by simpa using ha)

theorem memory_nil_wf : Memory.wf [] := by decide

end Sys2Proof.Machine
end

