-- ==== Sys2Proof/Laws/Record.lean ====
section
/-!
SUPPORT. Records byte by byte: the 64-bit view and its bytes (R9), the byte ENCODE puts in each place (R53, R67),
and the numbers that the encode and decode formulas compute (R54, R55, R67).
-/

namespace Sys2Proof.Machine

/-- Byte `i` of a record as a number (R9). -/
theorem recByte_toNat (r : Record) (i : Nat) : (recByte r i).toNat = r.toNat / 2 ^ (8 * i) % 256 := by
  simp [recByte, BitVec.extractLsb'_toNat, Nat.shiftRight_eq_div_pow]

/-- The sum of R9 does not wrap: its terms occupy disjoint bits. -/
theorem ofRecBytes_toNat (b0 b1 b2 b3 b4 b5 b6 b7 : Byte) :
    (ofRecBytes b0 b1 b2 b3 b4 b5 b6 b7).toNat =
      b0.toNat + 2 ^ 8 * b1.toNat + 2 ^ 16 * b2.toNat + 2 ^ 24 * b3.toNat
        + 2 ^ 32 * b4.toNat + 2 ^ 40 * b5.toNat + 2 ^ 48 * b6.toNat + 2 ^ 56 * b7.toNat := by
  have := b0.isLt; have := b1.isLt; have := b2.isLt; have := b3.isLt
  have := b4.isLt; have := b5.isLt; have := b6.isLt; have := b7.isLt
  rw [ofRecBytes, BitVec.toNat_ofNat]; omega

/-- The bytes of a record are those it was made from. -/
theorem recByte_ofRecBytes (b0 b1 b2 b3 b4 b5 b6 b7 : Byte) :
    recByte (ofRecBytes b0 b1 b2 b3 b4 b5 b6 b7) 0 = b0 ∧ recByte (ofRecBytes b0 b1 b2 b3 b4 b5 b6 b7) 1 = b1 ∧
    recByte (ofRecBytes b0 b1 b2 b3 b4 b5 b6 b7) 2 = b2 ∧ recByte (ofRecBytes b0 b1 b2 b3 b4 b5 b6 b7) 3 = b3 ∧
    recByte (ofRecBytes b0 b1 b2 b3 b4 b5 b6 b7) 4 = b4 ∧ recByte (ofRecBytes b0 b1 b2 b3 b4 b5 b6 b7) 5 = b5 ∧
    recByte (ofRecBytes b0 b1 b2 b3 b4 b5 b6 b7) 6 = b6 ∧ recByte (ofRecBytes b0 b1 b2 b3 b4 b5 b6 b7) 7 = b7 := by
  have := b0.isLt; have := b1.isLt; have := b2.isLt; have := b3.isLt
  have := b4.isLt; have := b5.isLt; have := b6.isLt; have := b7.isLt
  refine ⟨?_, ?_, ?_, ?_, ?_, ?_, ?_, ?_⟩ <;>
    (apply BitVec.eq_of_toNat_eq; rw [recByte_toNat, ofRecBytes_toNat]; omega)

/-- A record is determined by its bytes. -/
theorem ofRecBytes_recByte (r : Record) :
    ofRecBytes (recByte r 0) (recByte r 1) (recByte r 2) (recByte r 3)
      (recByte r 4) (recByte r 5) (recByte r 6) (recByte r 7) = r := by
  apply BitVec.eq_of_toNat_eq
  simp only [ofRecBytes_toNat, recByte_toNat]; omega

/-- The eight bytes that MemWrite lays out for a record are its bytes in order (R32). -/
theorem leBytes_record (r : Record) :
    leBytes descBytes r.toNat = [recByte r 0, recByte r 1, recByte r 2, recByte r 3,
      recByte r 4, recByte r 5, recByte r 6, recByte r 7] := by
  simp only [descBytes, leBytes, List.cons.injEq, and_true]
  refine ⟨?_, ?_, ?_, ?_, ?_, ?_, ?_, ?_⟩ <;>
    (apply BitVec.eq_of_toNat_eq; rw [recByte_toNat, BitVec.toNat_ofNat]; omega)

/-! ### Decode as numbers -/

/-- Two fields, the lower one below bit `n`, join without overlap. -/
theorem shift_or_toNat (a b : Word) (n : Nat) (ha : a.toNat * 2 ^ n < 2 ^ 32) (hb : b.toNat < 2 ^ n) :
    ((a <<< n) ||| b).toNat = a.toNat * 2 ^ n + b.toNat := by
  rw [BitVec.toNat_or, BitVec.toNat_shiftLeft, Nat.shiftLeft_eq, Nat.mod_eq_of_lt ha, ← Nat.shiftLeft_eq,
    ← Nat.shiftLeft_add_eq_or_of_lt hb]

/-- The base of a record as a number (R55). -/
theorem recBase_toNat (r : Record) :
    (recBase r).toNat = (recByte r 7).toNat * 2 ^ 24 + (recByte r 4).toNat * 2 ^ 16
      + (recByte r 3).toNat * 2 ^ 8 + (recByte r 2).toNat := by
  have h2 := (recByte r 2).isLt; have h3 := (recByte r 3).isLt
  have h4 := (recByte r 4).isLt; have h7 := (recByte r 7).isLt
  have w : ∀ b : Byte, (b.setWidth 32).toNat = b.toNat := fun b => by
    rw [BitVec.toNat_setWidth]; have := b.isLt; omega
  have e1 := shift_or_toNat ((recByte r 3).setWidth 32) ((recByte r 2).setWidth 32) 8
    (by rw [w]; omega) (by rw [w]; omega)
  have e2 := shift_or_toNat ((recByte r 4).setWidth 32)
    (((recByte r 3).setWidth 32 <<< 8) ||| (recByte r 2).setWidth 32) 16
    (by rw [w]; omega) (by rw [e1, w, w]; omega)
  have e3 := shift_or_toNat ((recByte r 7).setWidth 32)
    (((recByte r 4).setWidth 32 <<< 16) |||
      (((recByte r 3).setWidth 32 <<< 8) ||| (recByte r 2).setWidth 32)) 24
    (by rw [w]; omega) (by rw [e2, e1, w, w, w]; omega)
  rw [recBase, BitVec.or_assoc, BitVec.or_assoc, e3, e2, e1]
  simp only [w]; omega

/-- The raw limit of a record as a number (R54). -/
theorem recRawLimit_toNat (r : Record) :
    (recRawLimit r).toNat = (recByte r 6).toNat % 16 * 2 ^ 16 + (recByte r 1).toNat * 2 ^ 8
      + (recByte r 0).toNat := by
  have h0 := (recByte r 0).isLt; have h1 := (recByte r 1).isLt; have h6 := (recByte r 6).isLt
  have w : ∀ b : Byte, (b.setWidth 32).toNat = b.toNat := fun b => by
    rw [BitVec.toNat_setWidth]; have := b.isLt; omega
  have m : ((recByte r 6).setWidth 32 &&& 0xF#32).toNat = (recByte r 6).toNat % 16 := by
    rw [BitVec.toNat_and, w]; exact Nat.and_two_pow_sub_one_eq_mod _ 4
  have e1 := shift_or_toNat ((recByte r 1).setWidth 32) ((recByte r 0).setWidth 32) 8
    (by rw [w]; omega) (by rw [w]; omega)
  have e2 := shift_or_toNat ((recByte r 6).setWidth 32 &&& 0xF#32)
    (((recByte r 1).setWidth 32 <<< 8) ||| (recByte r 0).setWidth 32) 16
    (by rw [m]; omega) (by rw [e1, w, w]; omega)
  rw [recRawLimit, BitVec.or_assoc, e2, e1]
  simp only [w, m]; omega

/-- The raw limit has 20 bits (R54). -/
theorem recRawLimit_lt (r : Record) : (recRawLimit r).toNat < 2 ^ 20 := by
  have h0 := (recByte r 0).isLt; have h1 := (recByte r 1).isLt
  rw [recRawLimit_toNat]; omega

/-- Decode's granularity test on the number of byte 6: its two high bits are both 1 (R76). -/
theorem pageGranular_eq (b6 : Byte) : pageGranular b6 = decide (192 ≤ b6.toNat) := by
  revert b6; decide

/-- The decoded limit as a number: bytes, or 4 KiB units less one byte (R75). -/
theorem decodeLimitOf_toNat (r : Record) :
    (decodeLimitOf r).toNat =
      if recPageGranular r then (recRawLimit r).toNat * 4096 + 4095 else (recRawLimit r).toNat := by
  have h := recRawLimit_lt r
  unfold decodeLimitOf
  split
  · rw [shift_or_toNat _ _ 12 (by omega) (by decide)]; rfl
  · rfl

/-! ### Encode as numbers -/

/-- The limit field as a number: the limit in bytes up to 65536, and above it the number of whole 4 KiB units less
one, or not less one when the low 12 bits are all set (R68, R69). -/
theorem encodeLimit_toNat (limit : Word) :
    (encodeLimit limit).toNat =
      if limit.toNat ≤ 65536 then limit.toNat
      else if limit.toNat % 4096 = 4095 then limit.toNat / 4096 else limit.toNat / 4096 - 1 := by
  have h := limit.isLt
  have hm : (limit &&& 0xFFF#32).toNat = limit.toNat % 4096 := by
    rw [BitVec.toNat_and]; exact Nat.and_two_pow_sub_one_eq_mod _ 12
  have hs : (limit >>> 12).toNat = limit.toNat / 4096 := by
    rw [BitVec.toNat_ushiftRight, Nat.shiftRight_eq_div_pow]
  have hc : (limit &&& 0xFFF#32 = 0xFFF#32) ↔ limit.toNat % 4096 = 4095 := by
    rw [← hm]; exact ⟨fun e => by rw [e]; rfl, fun e => BitVec.eq_of_toNat_eq e⟩
  have hg : limit ≤ byteGranMax ↔ limit.toNat ≤ 65536 := by
    rw [BitVec.le_def]; rfl
  unfold encodeLimit
  by_cases h1 : limit.toNat ≤ 65536
  · rw [if_pos (hg.mpr h1), if_pos h1]
  · rw [if_neg (fun x => h1 (hg.mp x)), if_neg h1]
    by_cases h2 : limit.toNat % 4096 = 4095
    · rw [if_neg (not_not_intro (hc.mpr h2)), if_pos h2, hs]
    · rw [if_pos (fun x => h2 (hc.mp x)), if_neg h2, BitVec.toNat_sub, hs]
      simp only [BitVec.toNat_ofNat]; omega

/-- The limit field fits in 20 bits (R72). -/
theorem encodeLimit_lt (limit : Word) : (encodeLimit limit).toNat < 2 ^ 20 := by
  have h := limit.isLt
  rw [encodeLimit_toNat]; split
  · omega
  · split <;> omega

/-- The flags nibble as a number (R68, R69). -/
theorem flagsNibble_toNat (limit : Word) :
    (flagsNibble limit).toNat = if limit.toNat ≤ 65536 then 4 else 12 := by
  have hg : limit ≤ byteGranMax ↔ limit.toNat ≤ 65536 := by
    rw [BitVec.le_def]; rfl
  unfold flagsNibble
  by_cases h1 : limit.toNat ≤ 65536
  · rw [if_pos (hg.mpr h1), if_pos h1]; rfl
  · rw [if_neg (fun x => h1 (hg.mp x)), if_neg h1]; rfl

theorem maskedByte_toNat (v : Word) (n : Nat) :
    (((v >>> n) &&& 0xFF#32).setWidth 8).toNat = v.toNat / 2 ^ n % 256 := by
  rw [BitVec.toNat_setWidth, BitVec.toNat_and, BitVec.toNat_ushiftRight, Nat.shiftRight_eq_div_pow]
  have : v.toNat / 2 ^ n &&& (0xFF#32).toNat = v.toNat / 2 ^ n % 256 := Nat.and_two_pow_sub_one_eq_mod _ 8
  rw [this]; omega

theorem encodeByte6_toNat (flags : BitVec 4) (lim20 : Word) :
    (encodeByte6 flags lim20).toNat = flags.toNat * 16 + lim20.toNat / 65536 % 16 := by
  have hf := flags.isLt
  have hl : (((lim20 >>> 16) &&& 0xF#32).setWidth 8).toNat = lim20.toNat / 65536 % 16 := by
    rw [BitVec.toNat_setWidth, BitVec.toNat_and, BitVec.toNat_ushiftRight, Nat.shiftRight_eq_div_pow]
    have : lim20.toNat / 2 ^ 16 &&& (0xF#32).toNat = lim20.toNat / 2 ^ 16 % 16 :=
      Nat.and_two_pow_sub_one_eq_mod _ 4
    rw [this]; omega
  have hw : (flags.setWidth 8).toNat = flags.toNat := by rw [BitVec.toNat_setWidth]; omega
  rw [encodeByte6, BitVec.toNat_or, BitVec.toNat_shiftLeft, hw, hl, Nat.shiftLeft_eq,
    Nat.mod_eq_of_lt (by omega), ← Nat.shiftLeft_eq, ← Nat.shiftLeft_add_eq_or_of_lt (by omega), Nat.shiftLeft_eq]

/-- Every byte ENCODE writes, as a number (R67, R70). -/
theorem recByte_encodeRecord (base limit : Word) (t : Byte) :
    (recByte (encodeRecord base limit t) 0).toNat = (encodeLimit limit).toNat % 256 ∧
    (recByte (encodeRecord base limit t) 1).toNat = (encodeLimit limit).toNat / 256 % 256 ∧
    (recByte (encodeRecord base limit t) 2).toNat = base.toNat % 256 ∧
    (recByte (encodeRecord base limit t) 3).toNat = base.toNat / 256 % 256 ∧
    (recByte (encodeRecord base limit t) 4).toNat = base.toNat / 65536 % 256 ∧
    recByte (encodeRecord base limit t) 5 = t ∧
    (recByte (encodeRecord base limit t) 6).toNat =
      (flagsNibble limit).toNat * 16 + (encodeLimit limit).toNat / 65536 ∧
    (recByte (encodeRecord base limit t) 7).toNat = base.toNat / 16777216 := by
  have hl := encodeLimit_lt limit
  have hb := base.isLt
  have z : ∀ v : Word, ((v &&& 0xFF#32).setWidth 8).toNat = v.toNat % 256 := fun v => by
    have := maskedByte_toNat v 0; simpa using this
  have hr := recByte_ofRecBytes ((encodeLimit limit &&& 0xFF#32).setWidth 8)
    (((encodeLimit limit >>> 8) &&& 0xFF#32).setWidth 8) ((base &&& 0xFF#32).setWidth 8)
    (((base >>> 8) &&& 0xFF#32).setWidth 8) (((base >>> 16) &&& 0xFF#32).setWidth 8) t
    (encodeByte6 (flagsNibble limit) (encodeLimit limit)) (((base >>> 24) &&& 0xFF#32).setWidth 8)
  obtain ⟨e0, e1, e2, e3, e4, e5, e6, e7⟩ := hr
  rw [encodeRecord, e0, e1, e2, e3, e4, e5, e6, e7]
  refine ⟨z _, maskedByte_toNat _ 8, z _, maskedByte_toNat _ 8, maskedByte_toNat _ 16, rfl, ?_, ?_⟩
  · rw [encodeByte6_toNat]; omega
  · rw [maskedByte_toNat]; omega

/-- The four entries in the 64-bit view (R94). -/
theorem tableEntry_values :
    tableEntry 0 = 0x0040000000000000#64 ∧ tableEntry 1 = 0x0040000000000000#64 ∧
    tableEntry 2 = 0x00C09A0000003FFF#64 ∧ tableEntry 3 = 0x00C0920000003FFF#64 := by decide

end Sys2Proof.Machine
end

