-- ==== Sys2Proof/Laws/State.lean ====
section
/-!
SUPPORT. What each named update of the state leaves in each field, and what the status updates leave in each field
of `STATUS`. Later proofs use these and unfold no update.
-/

namespace Sys2Proof.Machine

/-! ### One lemma per field per update -/

@[simp] theorem raise_cmd (s : State) (c : Cause) : (s.raise c).cmd = s.cmd := rfl
@[simp] theorem raise_baseIn (s : State) (c : Cause) : (s.raise c).baseIn = s.baseIn := rfl
@[simp] theorem raise_limitIn (s : State) (c : Cause) : (s.raise c).limitIn = s.limitIn := rfl
@[simp] theorem raise_accessIn (s : State) (c : Cause) : (s.raise c).accessIn = s.accessIn := rfl
@[simp] theorem raise_recIn (s : State) (c : Cause) : (s.raise c).recIn = s.recIn := rfl
@[simp] theorem raise_res (s : State) (c : Cause) : (s.raise c).res = s.res := rfl
@[simp] theorem raise_status (s : State) (c : Cause) : (s.raise c).status = statusFaulted s.status c.code := rfl
@[simp] theorem raise_pd (s : State) (c : Cause) : (s.raise c).pd = s.pd := rfl
@[simp] theorem raise_gdtr (s : State) (c : Cause) : (s.raise c).gdtr = s.gdtr := rfl
@[simp] theorem raise_watch (s : State) (c : Cause) : (s.raise c).watch = s.watch := rfl
@[simp] theorem raise_tableBase (s : State) (c : Cause) : (s.raise c).tableBase = s.tableBase := rfl
@[simp] theorem raise_cpl0 (s : State) (c : Cause) : (s.raise c).cpl0 = s.cpl0 := rfl
@[simp] theorem raise_mem (s : State) (c : Cause) : (s.raise c).mem = s.mem := rfl
@[simp] theorem raise_pending (s : State) (c : Cause) : (s.raise c).pending = s.pending := rfl
@[simp] theorem raise_hostSaw (s : State) (c : Cause) : (s.raise c).hostSaw = s.hostSaw := rfl

@[simp] theorem writeRes_cmd (s : State) (v : Record) : (s.writeRes v).cmd = s.cmd := rfl
@[simp] theorem writeRes_baseIn (s : State) (v : Record) : (s.writeRes v).baseIn = s.baseIn := rfl
@[simp] theorem writeRes_limitIn (s : State) (v : Record) : (s.writeRes v).limitIn = s.limitIn := rfl
@[simp] theorem writeRes_accessIn (s : State) (v : Record) : (s.writeRes v).accessIn = s.accessIn := rfl
@[simp] theorem writeRes_recIn (s : State) (v : Record) : (s.writeRes v).recIn = s.recIn := rfl
@[simp] theorem writeRes_res (s : State) (v : Record) : (s.writeRes v).res = some v := rfl
@[simp] theorem writeRes_status (s : State) (v : Record) : (s.writeRes v).status = s.status := rfl
@[simp] theorem writeRes_pd (s : State) (v : Record) : (s.writeRes v).pd = s.pd := rfl
@[simp] theorem writeRes_gdtr (s : State) (v : Record) : (s.writeRes v).gdtr = s.gdtr := rfl
@[simp] theorem writeRes_watch (s : State) (v : Record) : (s.writeRes v).watch = s.watch := rfl
@[simp] theorem writeRes_tableBase (s : State) (v : Record) : (s.writeRes v).tableBase = s.tableBase := rfl
@[simp] theorem writeRes_cpl0 (s : State) (v : Record) : (s.writeRes v).cpl0 = s.cpl0 := rfl
@[simp] theorem writeRes_mem (s : State) (v : Record) : (s.writeRes v).mem = s.mem := rfl
@[simp] theorem writeRes_pending (s : State) (v : Record) : (s.writeRes v).pending = s.pending := rfl
@[simp] theorem writeRes_hostSaw (s : State) (v : Record) : (s.writeRes v).hostSaw = s.hostSaw := rfl

@[simp] theorem loadGdtr_cmd (s : State) : s.loadGdtr.cmd = s.cmd := rfl
@[simp] theorem loadGdtr_baseIn (s : State) : s.loadGdtr.baseIn = s.baseIn := rfl
@[simp] theorem loadGdtr_limitIn (s : State) : s.loadGdtr.limitIn = s.limitIn := rfl
@[simp] theorem loadGdtr_accessIn (s : State) : s.loadGdtr.accessIn = s.accessIn := rfl
@[simp] theorem loadGdtr_recIn (s : State) : s.loadGdtr.recIn = s.recIn := rfl
@[simp] theorem loadGdtr_res (s : State) : s.loadGdtr.res = s.res := rfl
@[simp] theorem loadGdtr_status (s : State) : s.loadGdtr.status = s.status := rfl
@[simp] theorem loadGdtr_pd (s : State) : s.loadGdtr.pd = s.pd := rfl
@[simp] theorem loadGdtr_gdtr (s : State) : s.loadGdtr.gdtr = gdtrOfRecord s.pd := rfl
@[simp] theorem loadGdtr_watch (s : State) : s.loadGdtr.watch = s.watch := rfl
@[simp] theorem loadGdtr_tableBase (s : State) : s.loadGdtr.tableBase = s.tableBase := rfl
@[simp] theorem loadGdtr_cpl0 (s : State) : s.loadGdtr.cpl0 = s.cpl0 := rfl
@[simp] theorem loadGdtr_mem (s : State) : s.loadGdtr.mem = s.mem := rfl
@[simp] theorem loadGdtr_pending (s : State) : s.loadGdtr.pending = s.pending := rfl
@[simp] theorem loadGdtr_hostSaw (s : State) : s.loadGdtr.hostSaw = s.hostSaw := rfl

@[simp] theorem formPd_cmd (s : State) : s.formPd.cmd = s.cmd := rfl
@[simp] theorem formPd_baseIn (s : State) : s.formPd.baseIn = s.baseIn := rfl
@[simp] theorem formPd_limitIn (s : State) : s.formPd.limitIn = s.limitIn := rfl
@[simp] theorem formPd_accessIn (s : State) : s.formPd.accessIn = s.accessIn := rfl
@[simp] theorem formPd_recIn (s : State) : s.formPd.recIn = s.recIn := rfl
@[simp] theorem formPd_res (s : State) : s.formPd.res = s.res := rfl
@[simp] theorem formPd_status (s : State) : s.formPd.status = s.status := rfl
@[simp] theorem formPd_pd (s : State) : s.formPd.pd = loadRecord s.tableBase := rfl
@[simp] theorem formPd_gdtr (s : State) : s.formPd.gdtr = s.gdtr := rfl
@[simp] theorem formPd_watch (s : State) : s.formPd.watch = s.watch := rfl
@[simp] theorem formPd_tableBase (s : State) : s.formPd.tableBase = s.tableBase := rfl
@[simp] theorem formPd_cpl0 (s : State) : s.formPd.cpl0 = s.cpl0 := rfl
@[simp] theorem formPd_mem (s : State) : s.formPd.mem = s.mem := rfl
@[simp] theorem formPd_pending (s : State) : s.formPd.pending = s.pending := rfl
@[simp] theorem formPd_hostSaw (s : State) : s.formPd.hostSaw = s.hostSaw := rfl

@[simp] theorem markInstalled_cmd (s : State) : s.markInstalled.cmd = s.cmd := rfl
@[simp] theorem markInstalled_baseIn (s : State) : s.markInstalled.baseIn = s.baseIn := rfl
@[simp] theorem markInstalled_limitIn (s : State) : s.markInstalled.limitIn = s.limitIn := rfl
@[simp] theorem markInstalled_accessIn (s : State) : s.markInstalled.accessIn = s.accessIn := rfl
@[simp] theorem markInstalled_recIn (s : State) : s.markInstalled.recIn = s.recIn := rfl
@[simp] theorem markInstalled_res (s : State) : s.markInstalled.res = s.res := rfl
@[simp] theorem markInstalled_status (s : State) : s.markInstalled.status = statusInstalled s.status := rfl
@[simp] theorem markInstalled_pd (s : State) : s.markInstalled.pd = s.pd := rfl
@[simp] theorem markInstalled_gdtr (s : State) : s.markInstalled.gdtr = s.gdtr := rfl
@[simp] theorem markInstalled_watch (s : State) : s.markInstalled.watch = true := rfl
@[simp] theorem markInstalled_tableBase (s : State) : s.markInstalled.tableBase = s.tableBase := rfl
@[simp] theorem markInstalled_cpl0 (s : State) : s.markInstalled.cpl0 = s.cpl0 := rfl
@[simp] theorem markInstalled_mem (s : State) : s.markInstalled.mem = s.mem := rfl
@[simp] theorem markInstalled_pending (s : State) : s.markInstalled.pending = s.pending := rfl
@[simp] theorem markInstalled_hostSaw (s : State) : s.markInstalled.hostSaw = s.hostSaw := rfl

@[simp] theorem buildTable_cmd (s : State) : s.buildTable.cmd = s.cmd := by unfold State.buildTable; rfl
@[simp] theorem buildTable_baseIn (s : State) : s.buildTable.baseIn = s.baseIn := by unfold State.buildTable; rfl
@[simp] theorem buildTable_limitIn (s : State) : s.buildTable.limitIn = s.limitIn := by unfold State.buildTable; rfl
@[simp] theorem buildTable_accessIn (s : State) : s.buildTable.accessIn = s.accessIn := by unfold State.buildTable; rfl
@[simp] theorem buildTable_recIn (s : State) : s.buildTable.recIn = s.recIn := by unfold State.buildTable; rfl
@[simp] theorem buildTable_res (s : State) : s.buildTable.res = s.res := by unfold State.buildTable; rfl
@[simp] theorem buildTable_status (s : State) : s.buildTable.status = s.status := by unfold State.buildTable; rfl
@[simp] theorem buildTable_pd (s : State) : s.buildTable.pd = s.pd := by unfold State.buildTable; rfl
@[simp] theorem buildTable_gdtr (s : State) : s.buildTable.gdtr = s.gdtr := by unfold State.buildTable; rfl
@[simp] theorem buildTable_watch (s : State) : s.buildTable.watch = s.watch := by unfold State.buildTable; rfl
@[simp] theorem buildTable_tableBase (s : State) : s.buildTable.tableBase = s.tableBase := by unfold State.buildTable; rfl
@[simp] theorem buildTable_cpl0 (s : State) : s.buildTable.cpl0 = s.cpl0 := by unfold State.buildTable; rfl
@[simp] theorem buildTable_mem (s : State) : s.buildTable.mem = writeTable s.tableBase s.mem := by simp only [State.buildTable]
@[simp] theorem buildTable_pending (s : State) : s.buildTable.pending = s.pending := by unfold State.buildTable; rfl
@[simp] theorem buildTable_hostSaw (s : State) : s.buildTable.hostSaw = s.hostSaw := by unfold State.buildTable; rfl

@[simp] theorem saw_cmd (s : State) (v : Option HostValue) : (s.saw v).cmd = s.cmd := rfl
@[simp] theorem saw_baseIn (s : State) (v : Option HostValue) : (s.saw v).baseIn = s.baseIn := rfl
@[simp] theorem saw_limitIn (s : State) (v : Option HostValue) : (s.saw v).limitIn = s.limitIn := rfl
@[simp] theorem saw_accessIn (s : State) (v : Option HostValue) : (s.saw v).accessIn = s.accessIn := rfl
@[simp] theorem saw_recIn (s : State) (v : Option HostValue) : (s.saw v).recIn = s.recIn := rfl
@[simp] theorem saw_res (s : State) (v : Option HostValue) : (s.saw v).res = s.res := rfl
@[simp] theorem saw_status (s : State) (v : Option HostValue) : (s.saw v).status = s.status := rfl
@[simp] theorem saw_pd (s : State) (v : Option HostValue) : (s.saw v).pd = s.pd := rfl
@[simp] theorem saw_gdtr (s : State) (v : Option HostValue) : (s.saw v).gdtr = s.gdtr := rfl
@[simp] theorem saw_watch (s : State) (v : Option HostValue) : (s.saw v).watch = s.watch := rfl
@[simp] theorem saw_tableBase (s : State) (v : Option HostValue) : (s.saw v).tableBase = s.tableBase := rfl
@[simp] theorem saw_cpl0 (s : State) (v : Option HostValue) : (s.saw v).cpl0 = s.cpl0 := rfl
@[simp] theorem saw_mem (s : State) (v : Option HostValue) : (s.saw v).mem = s.mem := rfl
@[simp] theorem saw_pending (s : State) (v : Option HostValue) : (s.saw v).pending = s.pending := rfl
@[simp] theorem saw_hostSaw (s : State) (v : Option HostValue) : (s.saw v).hostSaw = v := rfl

@[simp] theorem popEvent_cmd (s : State) (r : List Event) : (s.popEvent r).cmd = s.cmd := rfl
@[simp] theorem popEvent_baseIn (s : State) (r : List Event) : (s.popEvent r).baseIn = s.baseIn := rfl
@[simp] theorem popEvent_limitIn (s : State) (r : List Event) : (s.popEvent r).limitIn = s.limitIn := rfl
@[simp] theorem popEvent_accessIn (s : State) (r : List Event) : (s.popEvent r).accessIn = s.accessIn := rfl
@[simp] theorem popEvent_recIn (s : State) (r : List Event) : (s.popEvent r).recIn = s.recIn := rfl
@[simp] theorem popEvent_res (s : State) (r : List Event) : (s.popEvent r).res = s.res := rfl
@[simp] theorem popEvent_status (s : State) (r : List Event) : (s.popEvent r).status = s.status := rfl
@[simp] theorem popEvent_pd (s : State) (r : List Event) : (s.popEvent r).pd = s.pd := rfl
@[simp] theorem popEvent_gdtr (s : State) (r : List Event) : (s.popEvent r).gdtr = s.gdtr := rfl
@[simp] theorem popEvent_watch (s : State) (r : List Event) : (s.popEvent r).watch = s.watch := rfl
@[simp] theorem popEvent_tableBase (s : State) (r : List Event) : (s.popEvent r).tableBase = s.tableBase := rfl
@[simp] theorem popEvent_cpl0 (s : State) (r : List Event) : (s.popEvent r).cpl0 = s.cpl0 := rfl
@[simp] theorem popEvent_mem (s : State) (r : List Event) : (s.popEvent r).mem = s.mem := rfl
@[simp] theorem popEvent_pending (s : State) (r : List Event) : (s.popEvent r).pending = r := rfl
@[simp] theorem popEvent_hostSaw (s : State) (r : List Event) : (s.popEvent r).hostSaw = s.hostSaw := rfl

@[simp] theorem writeCmd_cmd (s : State) (c : Byte) : (s.writeCmd c).cmd = c := rfl
@[simp] theorem writeCmd_baseIn (s : State) (c : Byte) : (s.writeCmd c).baseIn = s.baseIn := rfl
@[simp] theorem writeCmd_limitIn (s : State) (c : Byte) : (s.writeCmd c).limitIn = s.limitIn := rfl
@[simp] theorem writeCmd_accessIn (s : State) (c : Byte) : (s.writeCmd c).accessIn = s.accessIn := rfl
@[simp] theorem writeCmd_recIn (s : State) (c : Byte) : (s.writeCmd c).recIn = s.recIn := rfl
@[simp] theorem writeCmd_res (s : State) (c : Byte) : (s.writeCmd c).res = s.res := rfl
@[simp] theorem writeCmd_status (s : State) (c : Byte) : (s.writeCmd c).status = s.status := rfl
@[simp] theorem writeCmd_pd (s : State) (c : Byte) : (s.writeCmd c).pd = s.pd := rfl
@[simp] theorem writeCmd_gdtr (s : State) (c : Byte) : (s.writeCmd c).gdtr = s.gdtr := rfl
@[simp] theorem writeCmd_watch (s : State) (c : Byte) : (s.writeCmd c).watch = s.watch := rfl
@[simp] theorem writeCmd_tableBase (s : State) (c : Byte) : (s.writeCmd c).tableBase = s.tableBase := rfl
@[simp] theorem writeCmd_cpl0 (s : State) (c : Byte) : (s.writeCmd c).cpl0 = s.cpl0 := rfl
@[simp] theorem writeCmd_mem (s : State) (c : Byte) : (s.writeCmd c).mem = s.mem := rfl
@[simp] theorem writeCmd_pending (s : State) (c : Byte) : (s.writeCmd c).pending = s.pending := rfl
@[simp] theorem writeCmd_hostSaw (s : State) (c : Byte) : (s.writeCmd c).hostSaw = s.hostSaw := rfl

/-! ### The fields of `STATUS` after each status update -/

@[simp] theorem lifeField_statusFaulted (v : Byte) (k : BitVec 4) : lifeField (statusFaulted v k) = lifeField v := by
  revert v k; decide

@[simp] theorem faultField_statusFaulted (v : Byte) (k : BitVec 4) : faultField (statusFaulted v k) = true := by
  revert v k; decide

@[simp] theorem causeField_statusFaulted (v : Byte) (k : BitVec 4) : causeField (statusFaulted v k) = k := by
  revert v k; decide

@[simp] theorem reservedField_statusFaulted (v : Byte) (k : BitVec 4) :
    reservedField (statusFaulted v k) = reservedField v := by
  revert v k; decide

@[simp] theorem lifeField_statusInstalled (v : Byte) : lifeField (statusInstalled v) = lifeInstalled := by
  revert v; decide

@[simp] theorem faultField_statusInstalled (v : Byte) : faultField (statusInstalled v) = faultField v := by
  revert v; decide

@[simp] theorem causeField_statusInstalled (v : Byte) : causeField (statusInstalled v) = causeField v := by
  revert v; decide

@[simp] theorem reservedField_statusInstalled (v : Byte) : reservedField (statusInstalled v) = reservedField v := by
  revert v; decide

@[simp] theorem raise_life (s : State) (c : Cause) : (s.raise c).life = s.life := by simp [State.life]

@[simp] theorem raise_faulted (s : State) (c : Cause) : (s.raise c).faulted = true := by simp [State.faulted]

@[simp] theorem raise_cause (s : State) (c : Cause) : (s.raise c).cause = c.code := by simp [State.cause]

@[simp] theorem markInstalled_life (s : State) : s.markInstalled.life = lifeInstalled := by simp [State.life]

@[simp] theorem markInstalled_faulted (s : State) : s.markInstalled.faulted = s.faulted := by simp [State.faulted]

@[simp] theorem markInstalled_cause (s : State) : s.markInstalled.cause = s.cause := by simp [State.cause]

/-- Every cause has a code of its own (R102). -/
theorem cause_code_injective (c d : Cause) (h : c.code = d.code) : c = d := by
  cases c <;> cases d <;> first | rfl | exact absurd h (by decide)

/-- No cause is recorded as "none" (R20). -/
theorem cause_code_ne_zero (c : Cause) : c.code ≠ 0#4 := by cases c <;> decide

/-! ### A status that is unchanged -/

@[simp] theorem writeRes_life (s : State) (v : Record) : (s.writeRes v).life = s.life := rfl
@[simp] theorem writeRes_faulted (s : State) (v : Record) : (s.writeRes v).faulted = s.faulted := rfl
@[simp] theorem writeRes_cause (s : State) (v : Record) : (s.writeRes v).cause = s.cause := rfl

@[simp] theorem loadGdtr_life (s : State) : s.loadGdtr.life = s.life := rfl
@[simp] theorem loadGdtr_faulted (s : State) : s.loadGdtr.faulted = s.faulted := rfl
@[simp] theorem loadGdtr_cause (s : State) : s.loadGdtr.cause = s.cause := rfl

@[simp] theorem formPd_life (s : State) : s.formPd.life = s.life := rfl
@[simp] theorem formPd_faulted (s : State) : s.formPd.faulted = s.faulted := rfl
@[simp] theorem formPd_cause (s : State) : s.formPd.cause = s.cause := rfl

@[simp] theorem buildTable_life (s : State) : s.buildTable.life = s.life := by simp [State.life]
@[simp] theorem buildTable_faulted (s : State) : s.buildTable.faulted = s.faulted := by simp [State.faulted]
@[simp] theorem buildTable_cause (s : State) : s.buildTable.cause = s.cause := by simp [State.cause]

@[simp] theorem saw_life (s : State) (v : Option HostValue) : (s.saw v).life = s.life := rfl
@[simp] theorem saw_faulted (s : State) (v : Option HostValue) : (s.saw v).faulted = s.faulted := rfl
@[simp] theorem saw_cause (s : State) (v : Option HostValue) : (s.saw v).cause = s.cause := rfl

@[simp] theorem popEvent_life (s : State) (r : List Event) : (s.popEvent r).life = s.life := rfl
@[simp] theorem popEvent_faulted (s : State) (r : List Event) : (s.popEvent r).faulted = s.faulted := rfl
@[simp] theorem popEvent_cause (s : State) (r : List Event) : (s.popEvent r).cause = s.cause := rfl

@[simp] theorem writeCmd_life (s : State) (c : Byte) : (s.writeCmd c).life = s.life := rfl
@[simp] theorem writeCmd_faulted (s : State) (c : Byte) : (s.writeCmd c).faulted = s.faulted := rfl
@[simp] theorem writeCmd_cause (s : State) (c : Byte) : (s.writeCmd c).cause = s.cause := rfl

end Sys2Proof.Machine
end

