-- ==== Sys2Proof/Laws/Loader.lean ====
section
/-!
SUPPORT. Say once what each shared operation can do: accepting a command, the dispatch of the table load, the table's
bytes in memory, CONSTRUCT's four outcomes, a selector query's two.
-/

namespace Sys2Proof.Machine

/-- A command is performed exactly when the block runs (R108). -/
theorem accept_eq_next (s t : State) (k : State → State) :
    s.accept k = .next t ↔ s.faulted = false ∧ k s = t := by
  unfold State.accept
  cases h : s.faulted <;> simp

theorem accept_running (s : State) (k : State → State) (h : s.faulted = false) : s.accept k = .next (k s) := by
  simp [State.accept, h]

theorem accept_faulted (s : State) (k : State → State) (h : s.faulted = true) : s.accept k = .fault .halted := by
  simp [State.accept, h]

/-- The dispatch of the table load with privilege, and without (R89, R90). -/
theorem dispatchLoad_privileged (s : State) (k : State → State) (h : s.cpl0 = true) :
    s.dispatchLoad k = k s.loadGdtr := by
  simp [State.dispatchLoad, h]

theorem dispatchLoad_unprivileged (s : State) (k : State → State) (h : s.cpl0 = false) :
    s.dispatchLoad k = s.raise .privilegeViolation := by
  simp [State.dispatchLoad, h]

/-- The load record's two fields are the size field and the table's address (R58). -/
theorem gdtrOfRecord_loadRecord (b : Word) : gdtrOfRecord (loadRecord b) = ⟨gdtLimit, b⟩ := by
  have hb := b.isLt
  have h : (loadRecord b).toNat = b.toNat * 65536 + 31 := by
    have h1 : (gdtLimit.setWidth 48).toNat = 31 := by decide
    have h2 : (b.setWidth 48).toNat = b.toNat := by rw [BitVec.toNat_setWidth]; omega
    rw [loadRecord, BitVec.toNat_or, BitVec.toNat_shiftLeft, h1, h2, Nat.shiftLeft_eq,
      Nat.mod_eq_of_lt (by omega), ← Nat.shiftLeft_eq, ← Nat.shiftLeft_add_eq_or_of_lt (by decide), Nat.shiftLeft_eq]
  unfold gdtrOfRecord
  congr 1
  · apply BitVec.eq_of_toNat_eq
    rw [BitVec.extractLsb'_toNat, h]
    have : gdtLimit.toNat = 31 := by decide
    omega
  · apply BitVec.eq_of_toNat_eq
    rw [BitVec.extractLsb'_toNat, h, Nat.shiftRight_eq_div_pow]; omega

/-- A read after one entry is written (R87). -/
theorem memGet_writeEntry (b : Word) (m : Memory) (i a : Nat) :
    memGet (writeEntry b m i) a =
      if entryAddr b i ≤ a ∧ a < entryAddr b i + 8 then some (recByte (tableEntry i) (a - entryAddr b i))
      else memGet m a := by
  rw [writeEntry, memGet_memWrite]
  have hb : BitVec.ofNat 8 ((tableEntry i).toNat / 256 ^ (a - entryAddr b i)) =
      recByte (tableEntry i) (a - entryAddr b i) := by
    apply BitVec.eq_of_toNat_eq
    rw [recByte_toNat, BitVec.toNat_ofNat, Nat.pow_mul]
  rw [hb]
  rfl

/-- All that the four writes do to any read: entry `k / 8`, byte `k % 8` at `TABLE_BASE + k`, and nothing outside
the 32 bytes (R32, R37, R87). -/
theorem memGet_writeTable (b : Word) (m : Memory) (a : Nat) :
    memGet (writeTable b m) a =
      if b.toNat ≤ a ∧ a < b.toNat + tableSize then
        some (recByte (tableEntry ((a - b.toNat) / 8)) ((a - b.toNat) % 8))
      else memGet m a := by
  have e : ∀ i, entryAddr b i = b.toNat + 8 * i := fun _ => rfl
  have ts : tableSize = 32 := rfl
  simp only [writeTable, memGet_writeEntry, e, ts]
  by_cases h : b.toNat ≤ a ∧ a < b.toNat + 32
  · obtain ⟨k, rfl⟩ : ∃ k, a = b.toNat + k := ⟨a - b.toNat, by omega⟩
    have hk : k < 32 := by omega
    rw [if_pos h, Nat.add_sub_cancel_left]
    rcases (by omega : k < 8 ∨ 8 ≤ k ∧ k < 16 ∨ 16 ≤ k ∧ k < 24 ∨ 24 ≤ k) with h | h | h | h
    · rw [if_neg (by omega), if_neg (by omega), if_neg (by omega), if_pos (by omega)]
      congr 2 <;> (congr 1; omega)
    · rw [if_neg (by omega), if_neg (by omega), if_pos (by omega)]
      congr 2 <;> (congr 1; omega)
    · rw [if_neg (by omega), if_pos (by omega)]
      congr 2 <;> (congr 1; omega)
    · rw [if_pos (by omega)]
      congr 2 <;> (congr 1; omega)
  · rw [if_neg h, if_neg (by omega), if_neg (by omega), if_neg (by omega), if_neg (by omega)]

/-- The four writes keep the canonical form where the region does not wrap (R35). -/
theorem writeTable_wf (b : Word) (m : Memory) (hm : Memory.wf m) (hb : b ≤ lastTableBase) :
    Memory.wf (writeTable b m) := by
  have hb' : b.toNat ≤ 4294967264 := hb
  have e : ∀ i, i < 4 → ∀ m', Memory.wf m' → Memory.wf (writeEntry b m' i) := fun i hi m' h =>
    memWrite_wf m' _ _ _ h (by simp only [entryAddr, descBytes, addressCount]; omega)
  exact e 3 (by decide) _ (e 2 (by decide) _ (e 1 (by decide) _ (e 0 (by decide) _ hm)))

/-- The table region wraps exactly above the last base (R35). -/
theorem tableWraps_eq_false (s : State) : s.tableWraps = false ↔ s.tableBase ≤ lastTableBase := by
  simp [State.tableWraps]

/-- CONSTRUCT, outcome by outcome, in the order of its checks (R84, R85, R90). -/
theorem construct_installed (s : State) (h : s.life = lifeInstalled) : s.construct = s.raise .alreadyInstalled := by
  simp [State.construct, h]

theorem construct_wraps (s : State) (h : s.life ≠ lifeInstalled) (hw : s.tableWraps = true) :
    s.construct = s.raise .tableRegionWrap := by
  simp [State.construct, h, hw]

theorem construct_unprivileged (s : State) (h : s.life ≠ lifeInstalled) (hw : s.tableWraps = false)
    (hp : s.cpl0 = false) : s.construct = s.buildTable.formPd.raise .privilegeViolation := by
  rw [State.construct, if_neg h, if_neg (by simp [hw]), dispatchLoad_unprivileged _ _ (by simpa using hp)]

theorem construct_installs (s : State) (h : s.life ≠ lifeInstalled) (hw : s.tableWraps = false)
    (hp : s.cpl0 = true) : s.construct = s.buildTable.formPd.loadGdtr.markInstalled := by
  rw [State.construct, if_neg h, if_neg (by simp [hw]), dispatchLoad_privileged _ _ (by simpa using hp)]

/-- CONSTRUCT does one of these four things (R84). -/
theorem construct_cases (s : State) :
    (s.life = lifeInstalled ∧ s.construct = s.raise .alreadyInstalled) ∨
    (s.life ≠ lifeInstalled ∧ s.tableWraps = true ∧ s.construct = s.raise .tableRegionWrap) ∨
    (s.life ≠ lifeInstalled ∧ s.tableWraps = false ∧ s.cpl0 = false ∧
      s.construct = s.buildTable.formPd.raise .privilegeViolation) ∨
    (s.life ≠ lifeInstalled ∧ s.tableWraps = false ∧ s.cpl0 = true ∧
      s.construct = s.buildTable.formPd.loadGdtr.markInstalled) := by
  by_cases h : s.life = lifeInstalled
  · exact .inl ⟨h, construct_installed s h⟩
  · cases hw : s.tableWraps
    · cases hp : s.cpl0
      · exact .inr (.inr (.inl ⟨h, rfl, rfl, construct_unprivileged s h hw hp⟩))
      · exact .inr (.inr (.inr ⟨h, rfl, rfl, construct_installs s h hw hp⟩))
    · exact .inr (.inl ⟨h, rfl, construct_wraps s h hw⟩)

/-- A selector query does one of these two things (R95, R96). -/
theorem querySelector_cases (s : State) (sel : BitVec 16) :
    (s.life = lifeInstalled ∧ s.querySelector sel = s.writeRes (sel.setWidth 64)) ∨
    (s.life ≠ lifeInstalled ∧ s.querySelector sel = s.raise .notInstalled) := by
  by_cases h : s.life = lifeInstalled
  · exact .inl ⟨h, by simp [State.querySelector, h]⟩
  · exact .inr ⟨h, by simp [State.querySelector, h]⟩

end Sys2Proof.Machine
end

