-- ==== Sys2Proof/Laws/PerInstr.lean ====
section
/-!
SUPPORT. Facts about each instruction as syntax, one lemma per constructor.
-/

namespace Sys2Proof.Laws.EncodeShape

/-- A well-formed instruction's bytes are one command byte of unit 0x0 or 0x1 (R51, R64), or three that begin
`0F 01` with ModRM.reg = 010 and ModRM.mod other than 11 (R60). -/
def Statement (i : Instr) : Prop :=
  i.wellFormed = true →
    (∃ c, encode i = [c] ∧ (unitField c = 0x0#4 ∨ unitField c = 0x1#4)) ∨
    (∃ m, encode i = [0x0F#8, 0x01#8, m] ∧ regField m = 0b010#3 ∧ modField m ≠ 0b11#2)

theorem nop : Statement .nop := fun _ => .inl ⟨_, rfl, by decide⟩
theorem encode : Statement .encode := fun _ => .inl ⟨_, rfl, by decide⟩
theorem decodeBase : Statement .decodeBase := fun _ => .inl ⟨_, rfl, by decide⟩
theorem decodeLimit : Statement .decodeLimit := fun _ => .inl ⟨_, rfl, by decide⟩
theorem decodeGran : Statement .decodeGran := fun _ => .inl ⟨_, rfl, by decide⟩
theorem construct : Statement .construct := fun _ => .inl ⟨_, rfl, by decide⟩
theorem codeSel : Statement .codeSel := fun _ => .inl ⟨_, rfl, by decide⟩
theorem dataSel : Statement .dataSel := fun _ => .inl ⟨_, rfl, by decide⟩

theorem lgdt (mod : BitVec 2) (rm : BitVec 3) : Statement (.lgdt mod rm) := fun h => by
  refine .inr ⟨_, rfl, ?_⟩
  revert mod rm; decide

end Sys2Proof.Laws.EncodeShape
end

