-- ==== Sys2Proof/Laws/Step.lean ====
section
/-!
SUPPORT. Say once what `exec`, an event and a step can do: when each answers a next state, and which.
-/

namespace Sys2Proof.Machine

/-- What each instruction does to a block that runs. -/
def instrEffect : Instr → State → State
  | .nop, s => s
  | .encode, s => s.writeRes (encodeRecord s.baseIn s.limitIn s.accessIn)
  | .decodeBase, s => s.writeRes ((recBase s.recIn).setWidth 64)
  | .decodeLimit, s => s.writeRes ((decodeLimitOf s.recIn).setWidth 64)
  | .decodeGran, s => s.writeRes (decodeGranOf s.recIn)
  | .construct, s => s.construct
  | .codeSel, s => s.querySelector codeSelector
  | .dataSel, s => s.querySelector dataSelector
  | .lgdt _ _, s => s.dispatchLoad fun s => s

/-- `exec` answers a next state exactly for a well-formed instruction on a block that runs (R108). -/
theorem exec_eq_next (i : Instr) (s t : State) :
    exec i s = .next t ↔ i.wellFormed = true ∧ s.faulted = false ∧ instrEffect i s = t := by
  cases i
  case lgdt mod rm =>
    cases h : (Instr.lgdt mod rm).wellFormed
    · simp [exec, execLgdt, h]
    · simp [exec, execLgdt, h, accept_eq_next, instrEffect]
  all_goals
    simp [exec, execNop, execEncode, execDecodeBase, execDecodeLimit, execDecodeGran, execConstruct, execCodeSel,
      execDataSel, accept_eq_next, instrEffect, Instr.wellFormed]

/-- A running block performs every well-formed instruction. -/
theorem exec_running (i : Instr) (s : State) (hi : i.wellFormed = true) (h : s.faulted = false) :
    exec i s = .next (instrEffect i s) :=
  (exec_eq_next i s _).mpr ⟨hi, h, rfl⟩

/-- A Faulted block performs no instruction (R108). -/
theorem exec_faulted (i : Instr) (s : State) (hi : i.wellFormed = true) (h : s.faulted = true) :
    exec i s = .fault .halted := by
  cases i
  case lgdt mod rm => simp [exec, execLgdt, hi, accept_faulted _ _ h]
  all_goals
    simp [exec, execNop, execEncode, execDecodeBase, execDecodeLimit, execDecodeGran, execConstruct, execCodeSel,
      execDataSel, accept_faulted _ _ h]

/-! ### The decoder -/

/-- One byte decodes exactly when it is in the opcode map (R52). -/
theorem decode_command (c : Byte) (i : Instr) (h : decode [c] = .ok i) :
    (c = 0x00#8 ∧ i = .nop) ∨ (c = 0x01#8 ∧ i = .encode) ∨ (c = 0x02#8 ∧ i = .decodeBase) ∨
    (c = 0x03#8 ∧ i = .decodeLimit) ∨ (c = 0x04#8 ∧ i = .decodeGran) ∨ (c = 0x10#8 ∧ i = .construct) ∨
    (c = 0x11#8 ∧ i = .codeSel) ∨ (c = 0x12#8 ∧ i = .dataSel) := by
  have key : ∀ c : Byte, unitField c ++ funcField c = c := by decide
  rw [← key c]
  simp only [decode, decodeCommand, decodeCodec, decodeLoader] at h
  repeat' split at h
  all_goals first
    | (cases h; done)
    | (cases h; simp [*])

/-- Three bytes decode to the table load alone (R60). -/
theorem decode_tableLoad (b0 b1 m : Byte) (i : Instr) (h : decode [b0, b1, m] = .ok i) :
    b0 = 0x0F#8 ∧ b1 = 0x01#8 ∧ regField m = 0b010#3 ∧ modField m ≠ 0b11#2 ∧ i = .lgdt (modField m) (rmField m) := by
  simp only [decode, decodeTableLoad] at h
  split at h
  · rename_i h1
    split at h
    · exact absurd h (by simp)
    · rename_i h2
      exact ⟨h1.1, h1.2.1, h1.2.2, h2, by cases h; rfl⟩
  · exact absurd h (by simp)

/-- What the decoder accepts is well formed (R60, R64). -/
theorem decode_wellFormed (bs : List Byte) (i : Instr) (h : decode bs = .ok i) : i.wellFormed = true := by
  match bs, h with
  | [c], h =>
    rcases decode_command c i h with ⟨_, rfl⟩ | ⟨_, rfl⟩ | ⟨_, rfl⟩ | ⟨_, rfl⟩ | ⟨_, rfl⟩ | ⟨_, rfl⟩ | ⟨_, rfl⟩ | ⟨_, rfl⟩ <;> rfl
  | [b0, b1, m], h =>
    obtain ⟨_, _, _, hm, rfl⟩ := decode_tableLoad b0 b1 m i h
    simpa [Instr.wellFormed] using hm

/-! ### Events -/

/-- The host's memory accesses take place exactly on a running block, inside the address space (R28, R108). -/
theorem hostAccess_eq_next (s t : State) (a : Word) (n : Nat) (k : State → State) :
    s.hostAccess a n k = .next t ↔
      s.faulted = false ∧ inAddressSpace a.toNat n = true ∧ k s = t := by
  unfold State.hostAccess
  cases h : s.faulted <;> cases h2 : inAddressSpace a.toNat n <;> simp

/-- `HOSTWRITE` takes `TABLE_MUTATED` or does not; the bytes are written either way (R50). -/
theorem hostWrite_cases (s : State) (a : Word) (n v : Nat) :
    ((s.watch && touchesTable s.tableBase a.toNat n) = true ∧
      s.hostWrite a n v = ({ s with mem := memWrite s.mem a.toNat n v } : State).raise .tableMutated) ∨
    ((s.watch && touchesTable s.tableBase a.toNat n) = false ∧
      s.hostWrite a n v = { s with mem := memWrite s.mem a.toNat n v }) := by
  unfold State.hostWrite
  cases h : (s.watch && touchesTable s.tableBase a.toNat n)
  · exact .inr ⟨rfl, by simp⟩
  · exact .inl ⟨rfl, by simp⟩

/-- `READ RES` in its three cases (R16, R108). -/
theorem readRes_cases (s : State) :
    (s.faulted = true ∧ s.readRes = s.saw none) ∨
    (s.faulted = false ∧ s.res = none ∧ s.readRes = (s.saw none).raise .readUnwritten) ∨
    (s.faulted = false ∧ ∃ v, s.res = some v ∧ s.readRes = s.saw (some (.res v))) := by
  cases h : s.faulted
  · cases hr : s.res with
    | none => exact .inr (.inl ⟨rfl, rfl, by simp [State.readRes, h, hr]⟩)
    | some v => exact .inr (.inr ⟨rfl, v, rfl, by simp [State.readRes, h, hr]⟩)
  · exact .inl ⟨rfl, by simp [State.readRes, h]⟩

/-- What an event that answers a next state did. -/
def eventEffect : Event → State → State → Prop
  | .setBaseIn v, s, t => s.faulted = false ∧ t = { s with baseIn := v }
  | .setLimitIn v, s, t => s.faulted = false ∧ t = { s with limitIn := v }
  | .setAccessIn v, s, t => s.faulted = false ∧ t = { s with accessIn := v }
  | .setRecIn v, s, t => s.faulted = false ∧ t = { s with recIn := v }
  | .command c, s, t => s.faulted = false ∧
      ((∃ i, decode [c] = .ok i ∧ t = instrEffect i (s.writeCmd c)) ∨
       (∃ e, decode [c] = .error e ∧ t = (s.writeCmd c).raise .illegalCommand))
  | .readRes, s, t => t = s.readRes
  | .readStatus, s, t => t = s.readStatus
  | .hostWrite a n v, s, t => s.faulted = false ∧ inAddressSpace a.toNat n = true ∧ t = s.hostWrite a n v
  | .hostRead a n, s, t => s.faulted = false ∧ inAddressSpace a.toNat n = true ∧ t = s.hostRead a n
  | .reset p, s, t => t = s.doReset p
  | .tableLoad b0 b1 m, s, t => s.faulted = false ∧ (∃ i, decode [b0, b1, m] = .ok i) ∧
      t = s.dispatchLoad fun s => s

/-- An event answers a next state only by its effect. -/
theorem performEvent_effect (e : Event) (s t : State) (h : performEvent e s = .next t) : eventEffect e s t := by
  cases e
  case command c =>
    simp only [performEvent] at h
    split at h
    · rename_i i hd
      obtain ⟨_, hf, ht⟩ := (exec_eq_next _ _ _).mp h
      exact ⟨hf, .inl ⟨i, hd, ht.symm⟩⟩
    · rename_i e hd
      obtain ⟨hf, ht⟩ := (accept_eq_next _ _ _).mp h
      exact ⟨hf, .inr ⟨e, hd, ht.symm⟩⟩
  case tableLoad b0 b1 m =>
    simp only [performEvent] at h
    split at h
    · rename_i i hd
      obtain ⟨_, hf, ht⟩ := (exec_eq_next _ _ _).mp h
      obtain ⟨_, _, _, _, rfl⟩ := decode_tableLoad b0 b1 m i hd
      exact ⟨hf, ⟨_, hd⟩, ht.symm⟩
    · exact absurd h (by simp)
  case readRes => exact (Host.Outcome.next.inj h).symm
  case readStatus => exact (Host.Outcome.next.inj h).symm
  case reset p => exact (Host.Outcome.next.inj h).symm
  case hostWrite a n v =>
    simp only [performEvent] at h
    obtain ⟨h1, h2, h3⟩ := (hostAccess_eq_next _ _ _ _ _).mp h
    exact ⟨h1, h2, h3.symm⟩
  case hostRead a n =>
    simp only [performEvent] at h
    obtain ⟨h1, h2, h3⟩ := (hostAccess_eq_next _ _ _ _ _).mp h
    exact ⟨h1, h2, h3.symm⟩
  all_goals
    simp only [performEvent, State.setPort] at h
    obtain ⟨h1, h2⟩ := (accept_eq_next _ _ _).mp h
    exact ⟨h1, h2.symm⟩

/-! ### Steps -/

/-- A step performs the next action of the host's program. -/
theorem step_cons (s : State) (e : Event) (rest : List Event) (h : s.pending = e :: rest) :
    step s = performEvent e (s.popEvent rest) := by
  simp [step, h]

theorem step_nil (s : State) (h : s.pending = []) : step s = s.waitForHost := by
  simp [step, h]

/-- A step that answers a next state waited, or performed the next action of the host's program. -/
theorem step_cases (s t : State) (h : step s = .next t) :
    (s.pending = [] ∧ s.faulted = false ∧ t = s) ∨
    (∃ e rest, s.pending = e :: rest ∧ eventEffect e (s.popEvent rest) t) := by
  cases hp : s.pending with
  | nil =>
    rw [step_nil s hp] at h
    obtain ⟨h1, h2⟩ := (accept_eq_next _ _ _).mp h
    exact .inl ⟨rfl, h1, h2.symm⟩
  | cons e rest =>
    rw [step_cons s e rest hp] at h
    exact .inr ⟨e, rest, rfl, performEvent_effect _ _ _ h⟩

end Sys2Proof.Machine
end

