-- ==== Sys2Proof/Tests/Slice0.lean ====
section
/-!
SUPPORT. Tests on fixed values, their results taken from the spec (95_test_vectors.md names in brackets, or the words
of 30_encoding.md R52 and R60 written out by hand), and for each obligation with hypotheses a concrete state and
operands that meet them together, clause by clause.
-/

open Sys2Proof Sys2Proof.Machine

namespace Sys2Proof.Tests

/-! ### Helpers -/

/-- A block as after reset, with `TABLE_BASE` = 0x00101000, privileged, its ports written for vector E20. -/
def demo : State where
  cmd := 0x00#8
  baseIn := 0x12345678#32
  limitIn := 0x04000000#32
  accessIn := 0x9A#8
  recIn := 0x008F9A000000FFFF#64
  res := none
  status := 0x00#8
  pd := 0x112233445566#48
  gdtr := ⟨0xAAAA#16, 0xBBBBBBBB#32⟩
  watch := false
  tableBase := 0x00101000#32
  cpl0 := true
  mem := []
  pending := []
  hostSaw := none

/-- A block Faulted with `ILLEGAL_COMMAND`. -/
def halted : State := { demo with status := 0x0C#8 }

/-- The block after vector T1. -/
def ready : State := demo.construct

/-- `s` with `e` as the host's next action. -/
def next (s : State) (e : Event) : State := { s with pending := [e] }

/-- The next state, if there is one. -/
def stateOf : Host.Outcome State Fault Refusal → Option State
  | .next t => some t
  | .fault _ => none
  | .refused _ => none

/-- `STATUS` after the host's action `e` on `s`. -/
def statusAfter (s : State) (e : Event) : Option Byte := (stateOf (step (next s e))).map fun t => t.status

/-- What instruction `i` leaves in `RES`. -/
def resAfter (i : Instr) (s : State) : Option (Option Record) := (stateOf (exec i s)).map fun t => t.res

/-! ### Ill-formed terms -/

theorem test_illformed_lgdt : (Instr.lgdt 0b11#2 0b000#3).wellFormed = false := by decide

theorem test_illformed_lgdt_refused : exec (.lgdt 0b11#2 0b000#3) demo = .refused .registerOperand := rfl

/-! ### Words of R52 and R60, written out -/

theorem test_word_nop : decodeTableWord 8 0b00000000 = some .nop := by decide
theorem test_word_encode : decodeTableWord 8 0b00000001 = some .encode := by decide
theorem test_word_decodeBase : decodeTableWord 8 0b00000010 = some .decodeBase := by decide
theorem test_word_decodeLimit : decodeTableWord 8 0b00000011 = some .decodeLimit := by decide
theorem test_word_decodeGran : decodeTableWord 8 0b00000100 = some .decodeGran := by decide
theorem test_word_construct : decodeTableWord 8 0b00010000 = some .construct := by decide
theorem test_word_codeSel : decodeTableWord 8 0b00010001 = some .codeSel := by decide
theorem test_word_dataSel : decodeTableWord 8 0b00010010 = some .dataSel := by decide
theorem test_word_lgdt : decodeTableWord 24 0b00001111_00000001_10010110 = some (.lgdt 0b10#2 0b110#3) := by decide
theorem test_word_lgdt_zero : decodeTableWord 24 0b00001111_00000001_00010000 = some (.lgdt 0b00#2 0b000#3) := by
  decide

theorem test_reserved_words : ∀ c ∈ [0x05#8, 0x0F#8, 0x13#8, 0x1F#8, 0x20#8, 0x81#8, 0xFF#8],
    decode [c] = .error .reservedCommand := by decide

theorem test_bytes_refused : decode [0x0F#8, 0x01#8, 0x18#8] = .error .notTableLoad ∧
    decode [0x0F#8, 0x01#8, 0xD0#8] = .error .registerOperand ∧ decode [] = .error .wrongLength ∧
    decode [0x0F#8, 0x01#8] = .error .wrongLength := by decide

/-! ### A table word as the first instruction after reset -/

theorem test_first_command : step (State.reset.withFetchWord 8 0x10) =
    exec .construct { State.reset with cmd := 0x10#8 } := by rfl

theorem test_first_table_load : step (State.reset.withFetchWord 24 0x0F0110) =
    exec (.lgdt 0b00#2 0b000#3) State.reset := by rfl

/-! ### Instructions (95_test_vectors.md) -/

/-- [N1] -/
theorem test_nop : exec .nop { demo with res := some 0x5#64 } = .next { demo with res := some 0x5#64 } := rfl

/-- [N5] -/
theorem test_nop_halted : exec .nop halted = .fault .halted := rfl

/-- [E20] -/
theorem test_encode_page : resAfter .encode demo = some (some 0x12C09A3456783FFF#64) := by decide

/-- [E4] -/
theorem test_encode_byte : resAfter .encode { demo with baseIn := 0#32, limitIn := 0x00010000#32 } =
    some (some 0x00419A0000000000#64) := by decide

/-- [E7], [E17] in the pure function. -/
theorem test_encode_low_bits_set : encodeRecord 0#32 0x00010FFF#32 0x9A#8 = 0x00C09A0000000010#64 ∧
    encodeRecord 0#32 0xFFFFFFFF#32 0x9A#8 = 0x00CF9A000000FFFF#64 := by decide

/-- [D9] -/
theorem test_decodeBase : resAfter .decodeBase { demo with recIn := 0x12409A3456780000#64 } =
    some (some 0x12345678#64) := by decide

/-- [D12] -/
theorem test_decodeBase_low : resAfter .decodeBase { demo with recIn := 0x00BFFFFFFFFFFFFF#64 } =
    some (some 0x00FFFFFF#64) := by decide

/-- [D4] -/
theorem test_decodeLimit_nibble8 : resAfter .decodeLimit demo = some (some 0x000FFFFF#64) := by decide

/-- [D6] -/
theorem test_decodeLimit_nibbleF : resAfter .decodeLimit { demo with recIn := 0x00F0000000000000#64 } =
    some (some 0x00000FFF#64) := by decide

/-- [D11] -/
theorem test_decodeGran_byte : resAfter .decodeGran { demo with recIn := 0x0080FF0000001234#64 } =
    some (some 0#64) := by decide

/-- [D3] -/
theorem test_decodeGran_page : resAfter .decodeGran { demo with recIn := 0x00CF9A000000FFFF#64 } =
    some (some 1#64) := by decide

/-- [T1] -/
theorem test_construct : ready.status = 0x02#8 ∧ ready.gdtr = ⟨0x001F#16, 0x00101000#32⟩ ∧
    ready.pd = 0x00101000001F#48 ∧ ready.res = none ∧ memRead ready.mem 0x00101010 8 =
      [some 0xFF#8, some 0x3F#8, some 0x00#8, some 0x00#8, some 0x00#8, some 0x9A#8, some 0xC0#8, some 0x00#8] := by
  decide

/-- [T3], [T4], [T5], [T6], [T7] -/
theorem test_construct_status :
    ({ demo with tableBase := 0xFFFFFFE0#32 } : State).construct.status = 0x02#8 ∧
    ({ demo with tableBase := 0xFFFFFFE1#32 } : State).construct.status = 0x2C#8 ∧
    ({ demo with tableBase := 0x00200000#32, cpl0 := false } : State).construct.status = 0x24#8 ∧
    ready.construct.status = 0x1E#8 ∧ ({ ready with cpl0 := false } : State).construct.status = 0x1E#8 := by decide

/-- [T9] -/
theorem test_codeSel : resAfter .codeSel ready = some (some 0x10#64) := by decide

/-- [T11] -/
theorem test_codeSel_early : statusAfter demo (.command 0x11#8) = some 0x14#8 := by decide

/-- [T10] -/
theorem test_dataSel : resAfter .dataSel ready = some (some 0x18#64) := by decide

/-- [T12] -/
theorem test_dataSel_early : statusAfter demo (.command 0x12#8) = some 0x14#8 := by decide

/-- R58, R60, R89: LIMIT from `PD[15:0]`, BASE from `PD[47:16]`. -/
theorem test_lgdt : (stateOf (exec (.lgdt 0b00#2 0b101#3) demo)).map (fun t => (t.gdtr, t.status)) =
    some (⟨0x5566#16, 0x11223344#32⟩, 0x00#8) := by decide

/-- R90 -/
theorem test_lgdt_unprivileged :
    (stateOf (exec (.lgdt 0b00#2 0b101#3) { demo with cpl0 := false })).map (fun t => (t.gdtr, t.status)) =
    some (demo.gdtr, 0x24#8) := by decide

/-- [N2], [N3], [N4] -/
theorem test_reserved : statusAfter demo (.command 0x05#8) = some 0x0C#8 ∧
    statusAfter ready (.command 0xFF#8) = some 0x0E#8 ∧ statusAfter demo (.command 0x13#8) = some 0x0C#8 := by decide

/-! ### Host actions -/

/-- [H1] -/
theorem test_read_unwritten : statusAfter demo .readRes = some 0x3C#8 := by decide

/-- [H2] -/
theorem test_write_table : (stateOf (step (next ready (.hostWrite 0x00101015#32 1 0x9B)))).map
    (fun t => (t.status, memGet t.mem 0x00101015)) = some (0x36#8, some 0x9B#8) := by decide

/-- [H3], and the byte just below the table. -/
theorem test_write_beside_table : statusAfter ready (.hostWrite 0x00101020#32 4 0) = some 0x02#8 ∧
    statusAfter ready (.hostWrite 0x00100FFF#32 1 0) = some 0x02#8 ∧
    statusAfter ready (.hostWrite 0x00100FFF#32 2 0) = some 0x36#8 := by decide

/-- [H4] -/
theorem test_write_before_install : statusAfter demo (.hostWrite 0x00101000#32 8 0) = some 0x00#8 := by decide

/-- [H5]: 0x00C09A0000003FFF, byte by byte. -/
theorem test_read_table : (stateOf (step (next ready (.hostRead 0x00101010#32 8)))).map (fun t => t.hostSaw) =
    some (some (.memory [some 0xFF#8, some 0x3F#8, some 0x00#8, some 0x00#8, some 0x00#8, some 0x9A#8, some 0xC0#8,
      some 0x00#8])) := by decide

/-- [P4, line 2]: 0x12345678 lands least significant byte first. -/
theorem test_write_order : (stateOf (step (next demo (.hostWrite 0x00101020#32 4 0x12345678)))).map
    (fun t => memRead t.mem 0x00101020 4) = some [some 0x78#8, some 0x56#8, some 0x34#8, some 0x12#8] := by decide

/-- The three bytes of another CPU instruction are refused by name (assumption 12). -/
theorem test_other_instruction : step (next demo (.tableLoad 0x0F#8 0x01#8 0x18#8)) = .refused .notTheTableLoad := rfl

/-! ### Witnesses: the hypotheses of each obligation can be met, clause by clause -/

theorem witness_DecodeEncodeAgree : (Instr.lgdt 0b10#2 0b111#3).wellFormed = true ∧
    decode [0x0F#8, 0x01#8, 0x97#8] = .ok (.lgdt 0b10#2 0b111#3) := by decide

theorem witness_CommandDecodeTotal :
    (0x12#8 : Byte) ∈ [0x00#8, 0x01#8, 0x02#8, 0x03#8, 0x04#8, 0x10#8, 0x11#8, 0x12#8] ∧
    (0x05#8 : Byte) ∉ [0x00#8, 0x01#8, 0x02#8, 0x03#8, 0x04#8, 0x10#8, 0x11#8, 0x12#8] ∧
    (0xFF#8 : Byte) ∉ [0x00#8, 0x01#8, 0x02#8, 0x03#8, 0x04#8, 0x10#8, 0x11#8, 0x12#8] := by decide

theorem witness_ReservedCommandFaults : ∀ c ∈ [0x05#8, 0x0F#8, 0x13#8, 0x1F#8, 0x20#8, 0xFF#8],
    (next demo (.command c)).running ∧ (next demo (.command c)).pending = [.command c] ∧
    ((0x05#8 ≤ c ∧ c ≤ 0x0F#8) ∨ (0x13#8 ≤ c ∧ c ≤ 0x1F#8) ∨ 0x20#8 ≤ c) := by decide

theorem witness_StepRunsDecoded :
    (next demo (.command 0x12#8)).pending = [.command 0x12#8] ∧ decode [0x12#8] = .ok .dataSel ∧
    (next demo (.tableLoad 0x0F#8 0x01#8 0x15#8)).pending = [.tableLoad 0x0F#8 0x01#8 0x15#8] ∧
    decode [0x0F#8, 0x01#8, 0x15#8] = .ok (.lgdt 0b00#2 0b101#3) := by decide

/-- NopChangesNothing, and every statement that asks for a running or a Faulted block alone. -/
theorem witness_running_and_halted : demo.running ∧ ready.running ∧ halted.faulted = true := by decide

/-- The limit clauses of EncodeWritesClosedForm, EncodeArithmeticExact, EncodePlacesFields, EncodedFlagsNibble,
ByteGranularRoundTrip, PageGranularRoundsDown and BaseRoundTrip, at the boundary and at the top. -/
theorem witness_limits :
    [0#32, 65536#32].Forall (fun l => ({ demo with limitIn := l } : State).running ∧ l ≤ 65536#32) ∧
    [65537#32, 0x10FFE#32, 0xFFFFFFFE#32].Forall (fun l => ({ demo with limitIn := l } : State).running ∧
      65536#32 < l ∧ l &&& 0xFFF#32 ≠ 0xFFF#32 ∧ l.toNat % 4096 ≠ 4095) ∧
    [0x10FFF#32, 0xFFFFFFFF#32].Forall (fun l => ({ demo with limitIn := l } : State).running ∧ 65536#32 < l ∧
      l &&& 0xFFF#32 = 0xFFF#32 ∧ l.toNat % 4096 = 4095) := by decide

/-- DecodeLimitResult and DecodeGranResult (and DecodeBaseResult): a record of each granularity. -/
theorem witness_records :
    [0x00C0000000000000#64, 0xFFFFFFFFFFFFFFFF#64].Forall (fun r => ({ demo with recIn := r } : State).running ∧
      r.getLsbD 55 = true ∧ r.getLsbD 54 = true) ∧
    [0x008F9A000000FFFF#64, 0x004F9A000000FFFF#64, 0#64].Forall (fun r =>
      ({ demo with recIn := r } : State).running ∧ ¬ (r.getLsbD 55 = true ∧ r.getLsbD 54 = true)) := by decide

theorem witness_EncodeInjectivity :
    encodeRecord 5#32 0x10001#32 0x9A#8 = encodeRecord 5#32 0x10FFE#32 0x9A#8 ∧
    (65536#32 < 0x10001#32 ∧ 65536#32 < 0x10FFE#32 ∧ (0x10001#32).toNat / 4096 = (0x10FFE#32).toNat / 4096 ∧
      (0x10001#32).toNat % 4096 ≠ 4095 ∧ (0x10FFE#32).toNat % 4096 ≠ 4095) ∧
    (65536#32 < 0x10FFF#32 ∧ 65536#32 < 0x11000#32 ∧ (0x10FFF#32).toNat % 4096 = 4095 ∧
      (0x11000#32).toNat / 4096 = (0x10FFF#32).toNat / 4096 + 1 ∧ (0x11000#32).toNat % 4096 ≠ 4095) := by decide

theorem witness_ReencodeDecodedRecord :
    [0x10001#32, 0x10FFE#32].Forall (fun l => 0x10001#32 ≤ l ∧ l ≤ 0x10FFE#32 ∧
      decodeLimitOf (encodeRecord 5#32 l 1#8) = 0xFFFF#32) ∧
    [0#32, 0x10000#32, 0x10FFF#32, 0xFFFFFFFF#32].Forall (fun l => ¬ (0x10001#32 ≤ l ∧ l ≤ 0x10FFE#32)) := by decide

theorem witness_CodecDependsOnPortsOnly : demo.running ∧ ready.running ∧ demo.baseIn = ready.baseIn ∧
    demo.limitIn = ready.limitIn ∧ demo.accessIn = ready.accessIn ∧ demo.recIn = ready.recIn ∧
    demo.life ≠ ready.life ∧ demo.mem ≠ ready.mem ∧ demo.gdtr ≠ ready.gdtr := by decide

/-- ConstructInstalls and, with `CPL0` false, ConstructWithoutPrivilege: bases at both ends, aligned or not. -/
theorem witness_construct : ∀ p ∈ [true, false], [0#32, 0x00101003#32, 0xFFFFFFE0#32].Forall (fun b =>
    ({ demo with tableBase := b, cpl0 := p } : State).running ∧
    ¬ ({ demo with tableBase := b, cpl0 := p } : State).installed ∧ b ≤ 0xFFFFFFE0#32) := by decide

theorem witness_ConstructChecksInOrder : ready.running ∧ ready.installed ∧
    [0xFFFFFFE1#32, 0xFFFFFFFF#32].Forall (fun b => ({ demo with tableBase := b } : State).running ∧
      ¬ ({ demo with tableBase := b } : State).installed ∧ 0xFFFFFFE0#32 < b) := by decide

/-- ConstructIsAtomic: a run of each of its cases. -/
theorem witness_ConstructIsAtomic : ∀ s ∈ [demo, ready, { demo with cpl0 := false }],
    ∃ t, exec .construct s = .next t := by
  intro s hs
  have h : s.faulted = false := by
    revert s
    decide
  exact ⟨s.construct, by simp [exec, execConstruct, State.accept, h]⟩

theorem witness_SelectorQueries : ready.running ∧ ready.installed ∧ demo.running ∧ ¬ demo.installed := by decide

/-- SelectorsNameTheirEntries, TableReadsInRecordOrder and StepKeepsInv: an Installed, running block that
meets the invariant. -/
theorem witness_inv_installed : ready.Inv ∧ ready.running ∧ ready.installed :=
  ⟨⟨by decide, by decide, by decide, by decide, by decide, by decide, by decide, by decide⟩, by decide, by decide⟩

theorem witness_TableLoad : ∀ mod ∈ [0b00#2, 0b01#2, 0b10#2], demo.running ∧ demo.cpl0 = true ∧
    ({ demo with cpl0 := false } : State).running ∧ mod ≠ 0b11#2 := by decide

/-- InstructionFrames, PrivilegeMattersOnlyAtInstall: instructions outside and inside the exceptions. -/
theorem witness_InstructionFrames : exec .encode demo = .next { demo with res := some 0x12C09A3456783FFF#64 } ∧
    exec .construct demo = .next ready ∧ exec .nop ready = .next ready ∧
    exec (.lgdt 0b10#2 0b110#3) demo = .next { demo with gdtr := ⟨0x5566#16, 0x11223344#32⟩ } :=
  ⟨rfl, rfl, rfl, rfl⟩

theorem witness_step_changes_gdtr :
    (∃ t, step (next demo (.command 0x10#8)) = .next t ∧ t.gdtr ≠ demo.gdtr) ∧
    (∃ t, step (next demo (.tableLoad 0x0F#8 0x01#8 0x15#8)) = .next t ∧ t.gdtr ≠ demo.gdtr) ∧
    (∃ t, step (next ready (.reset ⟨0#32, true, ⟨1#16, 2#32⟩⟩)) = .next t ∧ t.gdtr ≠ ready.gdtr) :=
  ⟨⟨_, rfl, by decide⟩, ⟨_, rfl, by decide⟩, ⟨_, rfl, by decide⟩⟩

theorem witness_step_changes_memory :
    (∃ t, step (next demo (.command 0x10#8)) = .next t ∧ memGet t.mem 0x0010101F ≠ memGet demo.mem 0x0010101F) ∧
    (∃ t, step (next demo (.hostWrite 0xFFFFFFFF#32 1 7)) = .next t ∧
      memGet t.mem 0xFFFFFFFF ≠ memGet demo.mem 0xFFFFFFFF) ∧
    (∃ t, step (next ready (.reset ⟨0#32, true, ⟨1#16, 2#32⟩⟩)) = .next t ∧
      memGet t.mem 0x00101000 ≠ memGet ready.mem 0x00101000) :=
  ⟨⟨_, rfl, by decide⟩, ⟨_, rfl, by decide⟩, ⟨_, rfl, by decide⟩⟩

/-- PrivilegeMattersOnlyAtInstall, second clause, and FaultedAndInstalledPermanent: steps that are no reset. -/
theorem witness_step_no_reset :
    (∃ t, step (next ready (.command 0x11#8)) = .next t ∧ (next ready (.command 0x11#8)).installed) ∧
    (∃ t, step (next halted .readStatus) = .next t ∧ (next halted .readStatus).faulted = true) ∧
    ¬ (next ready (.command 0x11#8)).resetsNext ∧ ¬ (next halted .readStatus).resetsNext := by
  refine ⟨⟨_, rfl, by decide⟩, ⟨_, rfl, by decide⟩, ?_, ?_⟩
  · rintro ⟨p, rest, h⟩
    exact absurd (congrArg List.head? h) (by simp [next])
  · rintro ⟨p, rest, h⟩
    exact absurd (congrArg List.head? h) (by simp [next])

/-- FaultCauseNamesItsCondition: every cause is reached by one step of a running block. -/
theorem witness_FaultCauseNamesItsCondition :
    ¬ demo.installed ∧ demo.tableBase ≤ 0xFFFFFFE0#32 ∧
    (statusAfter demo (.command 0x20#8)).map causeField = some 1#4 ∧
    (statusAfter demo (.command 0x12#8)).map causeField = some 2#4 ∧
    (statusAfter ready (.command 0x10#8)).map causeField = some 3#4 ∧
    (statusAfter { demo with cpl0 := false } (.command 0x10#8)).map causeField = some 4#4 ∧
    (statusAfter { demo with cpl0 := false } (.tableLoad 0x0F#8 0x01#8 0x15#8)).map causeField = some 4#4 ∧
    (statusAfter { demo with tableBase := 0xFFFFFFE1#32 } (.command 0x10#8)).map causeField = some 5#4 ∧
    (statusAfter ready (.hostWrite 0x0010101F#32 1 0)).map causeField = some 6#4 ∧
    (statusAfter demo .readRes).map causeField = some 7#4 := by decide

/-- FaultedAcceptsNothing: a Faulted block with nothing to come, and with each kind of action to come. -/
theorem witness_FaultedAcceptsNothing : halted.faulted = true ∧ halted.pending = [] ∧
    (Instr.lgdt 0b00#2 0b000#3).wellFormed = true ∧ (next halted .readRes).faulted = true ∧
    step (next halted (.setBaseIn 1#32)) = .fault .halted ∧ step (next halted (.command 0x05#8)) = .fault .halted ∧
    step (next halted (.hostRead 0#32 1)) = .fault .halted := ⟨by decide, rfl, by decide, by decide, rfl, rfl, rfl⟩

/-- HostWriteStores and HostReadReturnsMemory: up to the very top, inside the watched table, and beside it. -/
theorem witness_HostWriteStores :
    (next demo (.hostWrite 0xFFFFFFFE#32 2 0x1234)).running ∧ (0xFFFFFFFE#32).toNat + 2 ≤ 4294967296 ∧
    (next ready (.hostWrite 0x0010101F#32 2 0)).watch = true ∧
    (ready.tableBase.toNat ≤ (0x0010101F#32).toNat + 0 ∧ (0x0010101F#32).toNat + 0 < ready.tableBase.toNat + 32) ∧
    ¬ (0x00101020#32).toNat < ready.tableBase.toNat + 32 ∧ (next ready (.hostRead 0xFFFFFFFF#32 1)).running := by decide

theorem witness_HostAccessPastTopStops : (next demo (.hostWrite 0xFFFFFFFF#32 2 0)).running ∧
    4294967296 < (0xFFFFFFFF#32).toNat + 2 ∧
    (next demo (.hostRead 0xFFFFFFFF#32 2)).pending = [.hostRead 0xFFFFFFFF#32 2] := by decide

/-- HostReadsRegisters, SetWritesItsPort, IdleBlockWaits and ResetLeavesEveryState. -/
theorem witness_host_actions : (next halted .readStatus).pending = [.readStatus] ∧
    (next { demo with res := some 5#64 } .readRes).running ∧ (next demo .readRes).res = none ∧
    (next demo (.setRecIn 1#64)).running ∧ demo.running ∧ demo.pending = [] ∧
    (next halted (.reset ⟨0#32, true, ⟨1#16, 2#32⟩⟩)).pending = [.reset ⟨0#32, true, ⟨1#16, 2#32⟩⟩] := by decide

/-- TableReadsInRecordOrder, second clause: an intact table also stands where the install took a privilege fault. -/
theorem witness_TableReadsInRecordOrder : ready.tableIntact ∧
    ({ demo with cpl0 := false } : State).construct.tableIntact := by decide

/-- StepKeepsInv, StatusStaysLegal and MemoryStaysCanonical: a step from a state that meets all three premises. -/
theorem witness_invariants : ready.Inv ∧ statusLegal ready.status ∧ Memory.wf ready.mem ∧
    ∃ t, step (next ready (.hostWrite 0x00101015#32 1 0x9B)) = .next t ∧ t.cause = 6#4 :=
  ⟨witness_inv_installed.1, by decide, by decide, ⟨_, rfl, by decide⟩⟩

end Sys2Proof.Tests
end

