-- ==== Sys2Proof/Proofs/HostMemory.lean ====
section
/-!
The host's memory accesses: what `MemRead` gives back of what `MemWrite` stored, and what `HOSTWRITE` and `HOSTREAD`
do to a running block inside the address space (R9, R11, R28, R39, R50).
-/

namespace Sys2Proof.Machine

/-! ### Reads after a write -/

theorem memGet_memWrite_inside (m : Memory) (a n v k : Nat) (h : k < n) :
    memGet (memWrite m a n v) (a + k) = some (BitVec.ofNat 8 (v / 256 ^ k)) := by
  rw [memGet_memWrite, if_pos (by omega), Nat.add_sub_cancel_left]

theorem memGet_memWrite_outside (m : Memory) (a n v b : Nat) (h : b < a ∨ a + n ≤ b) :
    memGet (memWrite m a n v) b = memGet m b := by
  rw [memGet_memWrite, if_neg (by omega)]

/-- The bytes read back are the bytes stored, none of them without a value. -/
theorem memRead_memWrite_same (m : Memory) (a n v : Nat) :
    memRead (memWrite m a n v) a n = (leBytes n v).map some := by
  apply List.ext_getElem?
  intro i
  rw [List.getElem?_map]
  by_cases h : i < n
  · rw [memRead_getElem? _ _ _ _ h, memGet_memWrite_inside _ _ _ _ _ h, leBytes_getElem? _ _ _ h, Option.map_some]
  · rw [List.getElem?_eq_none (by simpa using h), List.getElem?_eq_none (by simpa using h), Option.map_none]

/-- Laying a number out in `n` bytes and reading them as a number keeps its low `n` bytes (R9). -/
theorem leNumber_leBytes (n v : Nat) : leNumber ((leBytes n v).map some) = some (v % 256 ^ n) := by
  induction n generalizing v with
  | zero => simp [leBytes, leNumber, Nat.mod_one]
  | succ n ih =>
    have split_low_byte : v % 256 ^ (n + 1) = v % 256 + 256 * (v / 256 % 256 ^ n) := by
      rw [Nat.pow_succ', Nat.mod_mul]
    simp [leBytes, leNumber, ih, split_low_byte]

/-- Settles O42: the bytes read are the bytes stored, and they stand for the low `n` bytes of the number. -/
theorem memWriteReadsBack : Obligations.MemWriteReadsBack := by
  intro m a n v
  rw [memRead_memWrite_same, leNumber_leBytes]

/-! ### The host's accesses on a running block -/

/-- Inside the address space a running block performs the host's access (R28, R108). -/
theorem hostAccess_running (s : State) (addr : Word) (n : Nat) (k : State → State) (hrun : s.running)
    (hin : addr.toNat + n ≤ addressCount) : s.hostAccess addr n k = .next (k s) :=
  (hostAccess_eq_next _ _ _ _ _).mpr ⟨hrun, decide_eq_true hin, rfl⟩

theorem step_hostWrite_running (s : State) (addr : Word) (n v : Nat) (rest : List Event) (hrun : s.running)
    (hp : s.pending = .hostWrite addr n v :: rest) (hin : addr.toNat + n ≤ addressCount) :
    step s = .next ((s.popEvent rest).hostWrite addr n v) := by
  rw [step_cons s _ rest hp, performEvent]
  exact hostAccess_running (s.popEvent rest) addr n _ hrun hin

theorem step_hostRead_running (s : State) (addr : Word) (n : Nat) (rest : List Event) (hrun : s.running)
    (hp : s.pending = .hostRead addr n :: rest) (hin : addr.toNat + n ≤ addressCount) :
    step s = .next ((s.popEvent rest).hostRead addr n) := by
  rw [step_cons s _ rest hp, performEvent]
  exact hostAccess_running (s.popEvent rest) addr n _ hrun hin

/-- Settles O37: the step's value is `MemRead`, whose length and bytes the memory laws give. -/
theorem hostReadReturnsMemory : Obligations.HostReadReturnsMemory := by
  intro s addr n rest hrun hp hin
  exact ⟨memRead s.mem addr.toNat n, step_hostRead_running s addr n rest hrun hp hin, memRead_length _ _ _,
    fun k hk => memRead_getElem? _ _ _ k hk⟩

/-! ### The mutation watch -/

/-- The model's interval test finds exactly the writes of which some byte lies in the table region (R50). -/
theorem touchesTable_iff (base : Word) (a n : Nat) :
    touchesTable base a n = true ↔ ∃ k < n, base.toNat ≤ a + k ∧ a + k < base.toNat + 32 := by
  have size : tableSize = 32 := rfl
  rw [touchesTable, decide_eq_true_eq, size]
  constructor
  · intro ⟨hn, hbelow, habove⟩
    exact ⟨base.toNat - a, by omega, by omega, by omega⟩
  · intro ⟨k, hk, hlow, hhigh⟩
    exact ⟨by omega, by omega, by omega⟩

theorem watched_and_touchesTable_iff (s : State) (a n : Nat) :
    (s.watch && touchesTable s.tableBase a n) = true ↔
      s.watch = true ∧ ∃ k < n, s.tableBase.toNat ≤ a + k ∧ a + k < s.tableBase.toNat + 32 := by
  rw [Bool.and_eq_true, touchesTable_iff]

/-- What taking a fault writes to `STATUS` is what R107 says of its fields. -/
theorem recordsFault_statusFaulted (v : Byte) (k : BitVec 4) : recordsFault v (statusFaulted v k) k :=
  ⟨faultField_statusFaulted v k, causeField_statusFaulted v k, lifeField_statusFaulted v k,
    reservedField_statusFaulted v k⟩

/-- Settles O36: the bytes are the write law's whether or not the watch sees them; the two cases of `HOSTWRITE` differ
in `STATUS` alone. -/
theorem hostWriteStores : Obligations.HostWriteStores := by
  intro s addr n v rest hrun hp hin
  have hstep := step_hostWrite_running s addr n v rest hrun hp hin
  have hstored := memGet_memWrite_inside s.mem addr.toNat n v
  have hkept := memGet_memWrite_outside s.mem addr.toNat n v
  have hwatched := watched_and_touchesTable_iff s addr.toNat n
  rcases hostWrite_cases (s.popEvent rest) addr n v with ⟨hseen, heq⟩ | ⟨hunseen, heq⟩
  · exact ⟨_, statusFaulted s.status 6#4, hstep.trans (congrArg _ heq), hstored, hkept,
      fun _ => recordsFault_statusFaulted s.status 6#4, fun hnot => absurd (hwatched.mp hseen) hnot⟩
  · exact ⟨_, s.status, hstep.trans (congrArg _ heq), hstored, hkept,
      fun hhit => absurd (hwatched.mpr hhit) (Bool.eq_false_iff.mp hunseen), fun _ => rfl⟩

end Sys2Proof.Machine
end

