-- ==== Sys2Proof/Proofs/MachineState.lean ====
section
/-!
The machine's state over every step (10_state.md): what each instruction changes and leaves alone (R30), which steps
change `GDTR` (R19), and what every step keeps, the legal `STATUS` (R20) and the invariant of the machine among it.
-/

namespace Sys2Proof.Machine

/-! ### Two parts of the state -/

/-- What no instruction changes is the same in `t` as in `s`: the ports, the model arguments and the host's side. -/
structure State.SameHostSide (s t : State) : Prop where
  cmd : t.cmd = s.cmd
  baseIn : t.baseIn = s.baseIn
  limitIn : t.limitIn = s.limitIn
  accessIn : t.accessIn = s.accessIn
  recIn : t.recIn = s.recIn
  tableBase : t.tableBase = s.tableBase
  cpl0 : t.cpl0 = s.cpl0
  pending : t.pending = s.pending
  hostSaw : t.hostSaw = s.hostSaw

/-- `t` is `s` but for the ports, `RES` and the host's side: the fields that no invariant is about. -/
def State.SameInside (s t : State) : Prop :=
  t = { s with cmd := t.cmd, baseIn := t.baseIn, limitIn := t.limitIn, accessIn := t.accessIn, recIn := t.recIn,
               res := t.res, pending := t.pending, hostSaw := t.hostSaw }

theorem State.SameInside.status {s t : State} (h : s.SameInside t) : t.status = s.status := by rw [h]

theorem State.SameInside.life {s t : State} (h : s.SameInside t) : t.life = s.life := by rw [h]; rfl

theorem State.SameInside.tableBase {s t : State} (h : s.SameInside t) : t.tableBase = s.tableBase := by
  rw [h]

theorem sameInside_writeRes (s : State) (v : Record) : s.SameInside (s.writeRes v) := rfl

theorem sameInside_writeCmd (s : State) (c : Byte) : s.SameInside (s.writeCmd c) := rfl

theorem sameInside_saw (s : State) (v : Option HostValue) : s.SameInside (s.saw v) := rfl

theorem sameInside_popEvent (s : State) (rest : List Event) : s.SameInside (s.popEvent rest) := rfl

/-! ### What an instruction does -/

/-- The dispatch of the table load does one of these two things (R89, R90). -/
theorem dispatchLoad_cases (s : State) (k : State → State) :
    (s.cpl0 = true ∧ s.dispatchLoad k = k s.loadGdtr) ∨
    (s.cpl0 = false ∧ s.dispatchLoad k = s.raise .privilegeViolation) := by
  cases h : s.cpl0
  · exact .inr ⟨rfl, dispatchLoad_unprivileged s k h⟩
  · exact .inl ⟨rfl, dispatchLoad_privileged s k h⟩

/-- Every instruction but CONSTRUCT is at most one update: it takes a fault, writes `RES` or loads `GDTR`. -/
theorem instrEffect_cases (i : Instr) (s : State) :
    i = .construct ∨ instrEffect i s = s ∨ (∃ c, instrEffect i s = s.raise c) ∨
    ((i ≠ .nop ∧ ∀ mod rm, i ≠ .lgdt mod rm) ∧ ∃ v, instrEffect i s = s.writeRes v) ∨
    ((∃ mod rm, i = .lgdt mod rm) ∧ instrEffect i s = s.loadGdtr) := by
  cases i with
  | nop => exact .inr (.inl rfl)
  | construct => exact .inl rfl
  | encode | decodeBase | decodeLimit | decodeGran => exact .inr (.inr (.inr (.inl ⟨by simp, _, rfl⟩)))
  | codeSel | dataSel =>
    rcases querySelector_cases s _ with ⟨-, heq⟩ | ⟨-, heq⟩
    · exact .inr (.inr (.inr (.inl ⟨by simp, _, heq⟩)))
    · exact .inr (.inr (.inl ⟨_, heq⟩))
  | lgdt mod rm =>
    rcases dispatchLoad_cases s (fun s => s) with ⟨-, heq⟩ | ⟨-, heq⟩
    · exact .inr (.inr (.inr (.inr ⟨⟨mod, rm, rfl⟩, heq⟩)))
    · exact .inr (.inr (.inl ⟨_, heq⟩))

/-! ### CONSTRUCT's frame -/

theorem construct_sameHostSide (s : State) : s.SameHostSide s.construct := by
  rcases construct_cases s with ⟨-, heq⟩ | ⟨-, -, heq⟩ | ⟨-, -, -, heq⟩ | ⟨-, -, -, heq⟩ <;>
    rw [heq] <;> constructor <;> simp

@[simp] theorem construct_res (s : State) : s.construct.res = s.res := by
  rcases construct_cases s with ⟨-, heq⟩ | ⟨-, -, heq⟩ | ⟨-, -, -, heq⟩ | ⟨-, -, -, heq⟩ <;> simp [heq]

/-- CONSTRUCT moves the lifecycle to Installed or leaves it (R21). -/
theorem construct_life (s : State) : s.construct.life = s.life ∨ s.construct.life = lifeInstalled := by
  rcases construct_cases s with ⟨-, heq⟩ | ⟨-, -, heq⟩ | ⟨-, -, -, heq⟩ | ⟨-, -, -, heq⟩ <;> simp [heq]

/-- CONSTRUCT leaves `GDTR`, or installs and leaves it naming the table (R19, R89). -/
theorem construct_gdtr (s : State) :
    s.construct.gdtr = s.gdtr ∨
    (¬ s.installed ∧ s.tableWraps = false ∧ s.cpl0 = true ∧ s.construct.gdtr = ⟨gdtLimit, s.tableBase⟩) := by
  rcases construct_cases s with ⟨-, heq⟩ | ⟨-, -, heq⟩ | ⟨-, -, -, heq⟩ | ⟨hl, hw, hp, heq⟩
  case inr.inr.inr => exact .inr ⟨hl, hw, hp, by simp [heq, gdtrOfRecord_loadRecord]⟩
  all_goals exact .inl (by simp [heq])

/-! ### The frame of each instruction (R30) -/

theorem instrEffect_sameHostSide (i : Instr) (s : State) : s.SameHostSide (instrEffect i s) := by
  rcases instrEffect_cases i s with rfl | heq | ⟨c, heq⟩ | ⟨-, v, heq⟩ | ⟨-, heq⟩
  · exact construct_sameHostSide s
  all_goals rw [heq]; constructor <;> rfl

/-- Memory, `PD`, the watch and the lifecycle are CONSTRUCT's; every other instruction touches `STATUS` only to take a
fault. -/
theorem instrEffect_keeps_store (i : Instr) (s : State) (hi : i ≠ .construct) :
    (instrEffect i s).mem = s.mem ∧ (instrEffect i s).pd = s.pd ∧ (instrEffect i s).watch = s.watch ∧
    (instrEffect i s).life = s.life ∧ ((instrEffect i s).running → (instrEffect i s).status = s.status) := by
  rcases instrEffect_cases i s with rfl | heq | ⟨c, heq⟩ | ⟨-, v, heq⟩ | ⟨-, heq⟩
  · exact absurd rfl hi
  all_goals simp [heq]

theorem instrEffect_gdtr (i : Instr) (s : State) (hi : i ≠ .construct) (hl : ∀ mod rm, i ≠ .lgdt mod rm) :
    (instrEffect i s).gdtr = s.gdtr := by
  rcases instrEffect_cases i s with rfl | heq | ⟨c, heq⟩ | ⟨-, v, heq⟩ | ⟨⟨mod, rm, rfl⟩, -⟩
  · exact absurd rfl hi
  · rw [heq]
  · rw [heq, raise_gdtr]
  · rw [heq, writeRes_gdtr]
  · exact absurd rfl (hl mod rm)

theorem instrEffect_res (i : Instr) (s : State) (hi : i = .nop ∨ i = .construct ∨ ∃ mod rm, i = .lgdt mod rm) :
    (instrEffect i s).res = s.res := by
  rcases instrEffect_cases i s with rfl | heq | ⟨c, heq⟩ | ⟨⟨hnop, hlgdt⟩, -⟩ | ⟨-, heq⟩
  · exact construct_res s
  · rw [heq]
  · rw [heq, raise_res]
  · rcases hi with rfl | rfl | ⟨mod, rm, rfl⟩
    · exact absurd rfl hnop
    · exact construct_res s
    · exact absurd rfl (hlgdt mod rm)
  · rw [heq, loadGdtr_res]

/-- Settles O29: an instruction that completes is its effect, whose frame stands above. -/
theorem instructionFrames : Obligations.InstructionFrames := by
  intro i s t h
  obtain ⟨-, -, rfl⟩ := (exec_eq_next i s t).mp h
  obtain ⟨hcmd, hbase, hlimit, haccess, hrec, htable, hcpl, hpending, hsaw⟩ := instrEffect_sameHostSide i s
  exact ⟨hcmd, hbase, hlimit, haccess, hrec, htable, hcpl, hpending, hsaw,
    instrEffect_keeps_store i s, instrEffect_gdtr i s, instrEffect_res i s⟩

/-! ### The host's actions that leave `GDTR`, the lifecycle and `TABLE_BASE` -/

@[simp] theorem readRes_gdtr (s : State) : s.readRes.gdtr = s.gdtr := by
  rcases readRes_cases s with ⟨-, heq⟩ | ⟨-, -, heq⟩ | ⟨-, v, -, heq⟩ <;> simp [heq]

@[simp] theorem hostWrite_gdtr (s : State) (a : Word) (n v : Nat) : (s.hostWrite a n v).gdtr = s.gdtr := by
  rcases hostWrite_cases s a n v with ⟨-, heq⟩ | ⟨-, heq⟩ <;> simp [heq]

@[simp] theorem hostWrite_life (s : State) (a : Word) (n v : Nat) : (s.hostWrite a n v).life = s.life := by
  rcases hostWrite_cases s a n v with ⟨-, heq⟩ | ⟨-, heq⟩
  · rw [heq, raise_life]; rfl
  · rw [heq]; rfl

@[simp] theorem hostWrite_tableBase (s : State) (a : Word) (n v : Nat) :
    (s.hostWrite a n v).tableBase = s.tableBase := by
  rcases hostWrite_cases s a n v with ⟨-, heq⟩ | ⟨-, heq⟩ <;> simp [heq]

/-! ### Which steps change `GDTR` -/

theorem decode_command_construct (c : Byte) (h : decode [c] = .ok .construct) : c = 0x10#8 := by
  simpa using decode_command c _ h

/-- No command byte is the dispatched table load (R60, R64). -/
theorem decode_command_ne_lgdt (c : Byte) (mod : BitVec 2) (rm : BitVec 3) : decode [c] ≠ .ok (.lgdt mod rm) :=
  fun h => by simpa using decode_command c _ h

/-- Settles O30: of the events only a command, the dispatched load and a reset reach `GDTR`, and of the commands only
CONSTRUCT, where it installs. -/
theorem gdtrChangesOnlyAtInstall : Obligations.GdtrChangesOnlyAtInstall := by
  intro s t h hne
  rcases step_cases s t h with ⟨-, -, rfl⟩ | ⟨e, rest, hp, he⟩
  · exact absurd rfl hne
  cases e with
  | reset p => exact .inl ⟨p, rest, hp⟩
  | tableLoad b0 b1 b2 =>
    obtain ⟨-, -, rfl⟩ := he
    rcases dispatchLoad_cases (s.popEvent rest) (fun s => s) with ⟨hcpl, -⟩ | ⟨-, heq⟩
    · exact .inr (.inl ⟨b0, b1, b2, rest, hp, hcpl⟩)
    · exact absurd (by simp [heq]) hne
  | command c =>
    obtain ⟨hrun, ⟨i, hd, rfl⟩ | ⟨err, -, rfl⟩⟩ := he
    · by_cases hi : i = .construct
      · subst hi
        obtain rfl := decode_command_construct c hd
        rcases construct_gdtr ((s.popEvent rest).writeCmd 0x10#8) with hsame | ⟨hni, hw, hcpl, hg⟩
        · exact absurd hsame hne
        · exact .inr (.inr ⟨rest, hp, hrun, hni, hcpl, (tableWraps_eq_false _).mp hw, hg⟩)
      · have hl : ∀ mod rm, i ≠ .lgdt mod rm := fun mod rm hlgdt => decode_command_ne_lgdt c mod rm (hlgdt ▸ hd)
        exact absurd (instrEffect_gdtr i _ hi hl) hne
    · exact absurd rfl hne
  | readRes => exact absurd (by simp [show t = _ from he]) hne
  | readStatus => exact absurd (by rw [show t = _ from he]; rfl) hne
  | hostWrite a n v => exact absurd (by simp [he.2.2]) hne
  | hostRead a n => exact absurd (by rw [he.2.2]; rfl) hne
  | setBaseIn v | setLimitIn v | setAccessIn v | setRecIn v => exact absurd (by rw [he.2]; rfl) hne

/-! ### Properties that every step keeps -/

/-- `P` is kept by each update that a step of a running block is made of. What a reset leaves is apart. -/
structure KeptByUpdates (P : State → Prop) : Prop where
  around : ∀ s t : State, s.SameInside t → P s → P t
  raise : ∀ (s : State) (c : Cause), s.running → P s → P (s.raise c)
  loadGdtr : ∀ s : State, P s → P s.loadGdtr
  construct : ∀ s : State, s.running → P s → P s.construct
  hostWrite : ∀ (s : State) (a : Word) (n v : Nat), s.running → inAddressSpace a.toNat n = true → P s →
    P (s.hostWrite a n v)

theorem KeptByUpdates.instrEffect {P : State → Prop} (hP : KeptByUpdates P) (i : Instr) (s : State)
    (hrun : s.running) (hs : P s) : P (instrEffect i s) := by
  rcases instrEffect_cases i s with rfl | heq | ⟨c, heq⟩ | ⟨-, v, heq⟩ | ⟨-, heq⟩
  · exact hP.construct s hrun hs
  · rwa [heq]
  · rw [heq]; exact hP.raise s c hrun hs
  · rw [heq]; exact hP.around s _ (sameInside_writeRes s v) hs
  · rw [heq]; exact hP.loadGdtr s hs

theorem KeptByUpdates.readRes {P : State → Prop} (hP : KeptByUpdates P) (s : State) (hs : P s) : P s.readRes := by
  have saw : ∀ v, P (s.saw v) := fun v => hP.around s _ (sameInside_saw s v) hs
  rcases readRes_cases s with ⟨-, heq⟩ | ⟨hrun, -, heq⟩ | ⟨-, v, -, heq⟩ <;> rw [heq]
  · exact saw none
  · exact hP.raise (s.saw none) _ hrun (saw none)
  · exact saw _

theorem KeptByUpdates.eventEffect {P : State → Prop} (hP : KeptByUpdates P) (e : Event) (s t : State)
    (he : eventEffect e s t) (hreset : ∀ p, e = .reset p → P t) (hs : P s) : P t := by
  cases e with
  | reset p => exact hreset p rfl
  | tableLoad b0 b1 b2 =>
    obtain ⟨hrun, -, rfl⟩ := he
    rcases dispatchLoad_cases s (fun s => s) with ⟨-, heq⟩ | ⟨-, heq⟩ <;> rw [heq]
    · exact hP.loadGdtr s hs
    · exact hP.raise s _ hrun hs
  | command c =>
    have hcmd : P (s.writeCmd c) := hP.around s _ (sameInside_writeCmd s c) hs
    obtain ⟨hrun, ⟨i, -, rfl⟩ | ⟨err, -, rfl⟩⟩ := he
    · exact hP.instrEffect i _ hrun hcmd
    · exact hP.raise _ _ hrun hcmd
  | readRes => obtain rfl := he; exact hP.readRes s hs
  | readStatus => obtain rfl := he; exact hP.around s _ (sameInside_saw s _) hs
  | hostWrite a n v => obtain ⟨hrun, hin, rfl⟩ := he; exact hP.hostWrite s a n v hrun hin hs
  | hostRead a n => obtain ⟨-, -, rfl⟩ := he; exact hP.around s _ (sameInside_saw s _) hs
  | setBaseIn v | setLimitIn v | setAccessIn v | setRecIn v =>
    obtain ⟨-, rfl⟩ := he; exact hP.around s _ rfl hs

/-- What every update keeps, every step keeps, a reset aside. -/
theorem KeptByUpdates.step {P : State → Prop} (hP : KeptByUpdates P) {s t : State} (h : step s = .next t)
    (hreset : s.resetsNext → P t) (hs : P s) : P t := by
  rcases step_cases s t h with ⟨-, -, rfl⟩ | ⟨e, rest, hp, he⟩
  · exact hs
  · exact hP.eventEffect e (s.popEvent rest) t he (fun p hep => hreset ⟨p, rest, hep ▸ hp⟩)
      (hP.around s _ (sameInside_popEvent s rest) hs)

/-- After a reset the machine is as R118 leaves it, but for the host's program. -/
theorem step_reset_sameInside {s t : State} (h : step s = .next t) (hr : s.resetsNext) :
    ∃ p, (State.resetWith p).SameInside t := by
  obtain ⟨p, rest, hp⟩ := hr
  rw [step_cons s _ rest hp] at h
  obtain rfl : t = (s.popEvent rest).doReset p := performEvent_effect _ _ _ h
  exact ⟨p, rfl⟩

/-! ### A legal `STATUS` -/

theorem statusLegal_statusFaulted (v : Byte) (c : Cause) (h : statusLegal v) :
    statusLegal (statusFaulted v c.code) := by
  obtain ⟨hlife, hreserved, -, -⟩ := h
  have hcode : c.code ≤ 7#4 := by cases c <;> decide
  exact ⟨by simpa using hlife, by simpa using hreserved, by simpa using cause_code_ne_zero c, by simpa using hcode⟩

theorem statusLegal_statusInstalled (v : Byte) (h : statusLegal v) : statusLegal (statusInstalled v) := by
  obtain ⟨-, hreserved, hfault, hcause⟩ := h
  exact ⟨by simp, by simpa using hreserved, by simpa using hfault, by simpa using hcause⟩

theorem keptByUpdates_statusLegal : KeptByUpdates fun s => statusLegal s.status where
  around _ _ hst hs := by rwa [hst.status]
  raise s c _ hs := statusLegal_statusFaulted s.status c hs
  loadGdtr _ hs := hs
  construct s _ hs := by
    rcases construct_cases s with ⟨-, heq⟩ | ⟨-, -, heq⟩ | ⟨-, -, -, heq⟩ | ⟨-, -, -, heq⟩ <;> rw [heq]
    · exact statusLegal_statusFaulted _ _ hs
    · exact statusLegal_statusFaulted _ _ hs
    · rw [raise_status, formPd_status, buildTable_status]; exact statusLegal_statusFaulted _ _ hs
    · rw [markInstalled_status, loadGdtr_status, formPd_status, buildTable_status]
      exact statusLegal_statusInstalled _ hs
  hostWrite s a n v _ _ hs := by
    rcases hostWrite_cases s a n v with ⟨-, heq⟩ | ⟨-, heq⟩ <;> rw [heq]
    · exact statusLegal_statusFaulted _ _ hs
    · exact hs

/-- Settles O48: legality is kept by every update, and reset leaves `STATUS` at 0x00. -/
theorem statusStaysLegal : Obligations.StatusStaysLegal := by
  intro s t hs h
  refine keptByUpdates_statusLegal.step h (fun hr => ?_) hs
  obtain ⟨p, ht⟩ := step_reset_sameInside h hr
  rw [ht.status]
  exact (by decide : statusLegal 0x00#8)

/-! ### What is permanent between resets -/

/-- The Installed lifecycle has no way out but reset (R21, R119). -/
theorem keptByUpdates_installed : KeptByUpdates State.installed where
  around _ _ hst hs := hst.life.trans hs
  raise s c _ hs := (raise_life s c).trans hs
  loadGdtr _ hs := hs
  construct s _ hs := (construct_life s).elim (·.trans hs) id
  hostWrite s a n v _ _ hs := (hostWrite_life s a n v).trans hs

theorem keptByUpdates_tableBase (b : Word) : KeptByUpdates fun s => s.tableBase = b where
  around _ _ hst hs := hst.tableBase.trans hs
  raise _ _ _ hs := hs
  loadGdtr _ hs := hs
  construct s _ hs := (construct_sameHostSide s).tableBase.trans hs
  hostWrite s a n v _ _ hs := (hostWrite_tableBase s a n v).trans hs

/-- A Faulted block's steps are a reset and the reads of its two registers (R108). -/
theorem eventEffect_faulted (e : Event) (s t : State) (he : eventEffect e s t) (hf : s.faulted = true) :
    (∃ p, e = .reset p) ∨ ∃ v, t = s.saw v := by
  have hstopped : ¬ s.faulted = false := by simp [hf]
  cases e with
  | reset p => exact .inl ⟨p, rfl⟩
  | readStatus => exact .inr ⟨_, he⟩
  | readRes =>
    rcases readRes_cases s with ⟨-, heq⟩ | ⟨hrun, -, -⟩ | ⟨hrun, -⟩
    · exact .inr ⟨none, Eq.trans he heq⟩
    · exact absurd hrun hstopped
    · exact absurd hrun hstopped
  | _ => exact absurd he.1 hstopped

/-- Settles O35: what a Faulted block still does is a read; the lifecycle and `TABLE_BASE` are kept by every update. -/
theorem faultedAndInstalledPermanent : Obligations.FaultedAndInstalledPermanent := by
  intro s t h hnr
  refine ⟨fun hf => ?_, keptByUpdates_installed.step h (absurd · hnr),
    (keptByUpdates_tableBase s.tableBase).step h (absurd · hnr) rfl⟩
  rcases step_cases s t h with ⟨-, -, rfl⟩ | ⟨e, rest, hp, he⟩
  · rfl
  · rcases eventEffect_faulted e _ t he hf with ⟨p, rfl⟩ | ⟨v, rfl⟩
    · exact absurd ⟨p, rest, hp⟩ hnr
    · rfl

/-! ### The invariant, update by update -/

theorem inv_of_sameInside (s t : State) (hst : s.SameInside t) (hs : s.Inv) : t.Inv := by
  rw [hst]
  exact ⟨hs.status, hs.mem, hs.watch, hs.region, hs.privileged, hs.record, hs.gdtr, hs.table⟩

/-- On a running block no write to the table has been recorded, so its bytes stand (R26, R50). -/
theorem State.Inv.table_of_running {s : State} (hs : s.Inv) (hrun : s.running) (hi : s.installed) :
    s.tableIntact := by
  obtain ⟨-, -, hcause, -⟩ := hs.status
  have hnone : s.cause = 0#4 := hcause.mp hrun
  exact hs.table hi (hnone ▸ (cause_code_ne_zero .tableMutated).symm)

theorem raise_installed (s : State) (c : Cause) : (s.raise c).installed ↔ s.installed := by
  rw [State.installed, raise_life]

theorem inv_raise (s : State) (c : Cause) (hrun : s.running) (hs : s.Inv) : (s.raise c).Inv where
  status := statusLegal_statusFaulted s.status c hs.status
  mem := hs.mem
  watch := hs.watch.trans (raise_installed s c).symm
  region hi := hs.region ((raise_installed s c).mp hi)
  privileged hi := hs.privileged ((raise_installed s c).mp hi)
  record hi := hs.record ((raise_installed s c).mp hi)
  gdtr hi := hs.gdtr ((raise_installed s c).mp hi)
  table hi _ := hs.table_of_running hrun ((raise_installed s c).mp hi)

/-- Loading `GDTR` again leaves it naming the table, since `PD` holds the load record (assumption 23). -/
theorem inv_loadGdtr (s : State) (hs : s.Inv) : s.loadGdtr.Inv where
  status := hs.status
  mem := hs.mem
  watch := hs.watch
  region := hs.region
  privileged := hs.privileged
  record := hs.record
  gdtr hi := by rw [loadGdtr_gdtr, hs.record hi, gdtrOfRecord_loadRecord, loadGdtr_tableBase]
  table := hs.table

/-- A write to memory keeps the invariant if it keeps the canonical form and, where no write to the table is recorded,
the table's bytes. -/
theorem State.Inv.withMem {s : State} (hs : s.Inv) (m : Memory) (hm : Memory.wf m)
    (htable : s.installed → s.cause ≠ Cause.tableMutated.code → State.tableIntact { s with mem := m }) :
    State.Inv { s with mem := m } :=
  ⟨hs.status, hm, hs.watch, hs.region, hs.privileged, hs.record, hs.gdtr, htable⟩

/-- Until the table is installed `PD` holds what it likes. -/
theorem inv_formPd (s : State) (hni : ¬ s.installed) (hs : s.Inv) : s.formPd.Inv :=
  ⟨hs.status, hs.mem, hs.watch, hs.region, hs.privileged, fun hi => absurd hi hni, hs.gdtr, hs.table⟩

theorem inv_buildTable (s : State) (hni : ¬ s.installed) (hw : s.tableWraps = false) (hs : s.Inv) :
    s.buildTable.Inv :=
  hs.withMem _ (writeTable_wf s.tableBase s.mem hs.mem ((tableWraps_eq_false s).mp hw)) (fun hi => absurd hi hni)

/-- The four writes leave each entry's bytes in its place (R25, R32). -/
theorem memGet_writeTable_entry (b : Word) (m : Memory) (i j : Nat) (hi : i < entryCount) (hj : j < descBytes) :
    memGet (writeTable b m) (entryAddr b i + j) = some (recByte (tableEntry i) j) := by
  have hi' : i < 4 := hi
  have hj' : j < 8 := hj
  have haddr : entryAddr b i + j = b.toNat + (8 * i + j) := Nat.add_assoc _ _ _
  have hsize : tableSize = 32 := rfl
  rw [memGet_writeTable, haddr, if_pos (by omega), Nat.add_sub_cancel_left,
    show (8 * i + j) / 8 = i by omega, show (8 * i + j) % 8 = j by omega]

/-- An install establishes what the invariant asks of an Installed block. -/
theorem inv_installs (s : State) (hw : s.tableWraps = false) (hp : s.cpl0 = true) (hs : s.Inv) :
    s.buildTable.formPd.loadGdtr.markInstalled.Inv where
  status := by simpa using statusLegal_statusInstalled s.status hs.status
  mem := by simpa using writeTable_wf s.tableBase s.mem hs.mem ((tableWraps_eq_false s).mp hw)
  watch := iff_of_true rfl (markInstalled_life _)
  region _ := by simpa using (tableWraps_eq_false s).mp hw
  privileged _ := by simpa using hp
  record _ := by simp
  gdtr _ := by simp [gdtrOfRecord_loadRecord]
  table _ _ i hi j hj := by simpa using memGet_writeTable_entry s.tableBase s.mem i j hi hj

theorem inv_construct (s : State) (hrun : s.running) (hs : s.Inv) : s.construct.Inv := by
  rcases construct_cases s with ⟨-, heq⟩ | ⟨-, -, heq⟩ | ⟨hni, hw, -, heq⟩ | ⟨-, hw, hp, heq⟩ <;> rw [heq]
  · exact inv_raise s _ hrun hs
  · exact inv_raise s _ hrun hs
  · have hrun' : s.buildTable.formPd.running := by rwa [State.running, formPd_faulted, buildTable_faulted]
    have hni' : ¬ s.buildTable.installed := by rwa [State.installed, buildTable_life]
    exact inv_raise s.buildTable.formPd _ hrun' (inv_formPd s.buildTable hni' (inv_buildTable s hni hw hs))
  · exact inv_installs s hw hp hs

/-- A host write that the watch does not see leaves the table's bytes. -/
theorem tableIntact_memWrite (s : State) (a n v : Nat) (h : touchesTable s.tableBase a n = false)
    (ht : s.tableIntact) : State.tableIntact { s with mem := memWrite s.mem a n v } := by
  intro i hi j hj
  have hi' : i < 4 := hi
  have hj' : j < 8 := hj
  have haddr : entryAddr s.tableBase i + j = s.tableBase.toNat + (8 * i + j) := Nat.add_assoc _ _ _
  have hclear : ¬ ∃ k < n, s.tableBase.toNat ≤ a + k ∧ a + k < s.tableBase.toNat + 32 :=
    fun hk => absurd ((touchesTable_iff s.tableBase a n).mpr hk) (by simp [h])
  have houtside : entryAddr s.tableBase i + j < a ∨ a + n ≤ entryAddr s.tableBase i + j := by
    by_contra hcovered
    exact hclear ⟨entryAddr s.tableBase i + j - a, by omega, by omega, by omega⟩
  exact (memGet_memWrite_outside s.mem a n v _ houtside).trans (ht i hi j hj)

theorem inv_hostWrite (s : State) (a : Word) (n v : Nat) (hrun : s.running)
    (hin : inAddressSpace a.toNat n = true) (hs : s.Inv) : (s.hostWrite a n v).Inv := by
  have hm : Memory.wf (memWrite s.mem a.toNat n v) := memWrite_wf _ _ _ _ hs.mem (of_decide_eq_true hin)
  rcases hostWrite_cases s a n v with ⟨-, heq⟩ | ⟨hunseen, heq⟩ <;> rw [heq]
  · exact (inv_raise s .tableMutated hrun hs).withMem _ hm (fun _ hc => absurd (raise_cause s _) hc)
  · refine hs.withMem _ hm (fun hi _ => tableIntact_memWrite s _ n v ?_ (hs.table_of_running hrun hi))
    rwa [hs.watch.mpr hi, Bool.true_and] at hunseen

theorem keptByUpdates_inv : KeptByUpdates State.Inv :=
  ⟨inv_of_sameInside, inv_raise, inv_loadGdtr, inv_construct, inv_hostWrite⟩

/-- After reset the block is not Installed, and `STATUS` and memory meet the invariant for any arguments (R118). -/
theorem inv_resetWith (p : Params) : (State.resetWith p).Inv := by
  have hni : ¬ (State.resetWith p).installed := (by decide : ¬ lifeField 0x00#8 = lifeInstalled)
  exact ⟨(by decide : statusLegal 0x00#8), memory_nil_wf, iff_of_false (by simp [State.resetWith]) hni,
    (absurd · hni), (absurd · hni), (absurd · hni), (absurd · hni), fun hi => absurd hi hni⟩

/-- Settles O47: every update keeps the invariant, and reset establishes it afresh. -/
theorem stepKeepsInv : Obligations.StepKeepsInv := by
  intro s t hs h
  refine keptByUpdates_inv.step h (fun hr => ?_) hs
  obtain ⟨p, ht⟩ := step_reset_sameInside h hr
  exact inv_of_sameInside _ t ht (inv_resetWith p)

/-! ### The flags nibble of an encoded record -/

/-- The high nibble of byte 6 is the flags nibble, clear of the limit's bits below it (R70). -/
theorem recByte_encodeRecord_flags (base limit : Word) (t : Byte) :
    (recByte (encodeRecord base limit t) 6).extractLsb' 4 4 = flagsNibble limit := by
  obtain ⟨-, -, -, -, -, -, hb6, -⟩ := recByte_encodeRecord base limit t
  have hlim := encodeLimit_lt limit
  have hflags := (flagsNibble limit).isLt
  apply BitVec.eq_of_toNat_eq
  rw [BitVec.extractLsb'_toNat, hb6, Nat.shiftRight_eq_div_pow]
  omega

/-- A bit of a byte's high nibble. -/
theorem getLsbD_high_nibble (b : Byte) (k : Nat) (hk : k < 4) :
    b.getLsbD (4 + k) = (b.extractLsb' 4 4).getLsbD k := by
  simp [hk]

theorem flagsNibble_byte (limit : Word) (h : limit ≤ 65536#32) : flagsNibble limit = 0x4#4 := if_pos h

theorem flagsNibble_page (limit : Word) (h : 65536#32 < limit) : flagsNibble limit = 0xC#4 :=
  if_neg (BitVec.not_le.mpr h)

/-- The flags nibble bit by bit: 32-bit operand size, two zero bits, and the granularity at the top (R24). -/
theorem flagsNibble_bits (limit : Word) :
    (flagsNibble limit).getLsbD 2 = true ∧ (flagsNibble limit).getLsbD 1 = false ∧
    (flagsNibble limit).getLsbD 0 = false ∧ (flagsNibble limit).getLsbD 3 = decide (65536#32 < limit) := by
  by_cases h : 65536#32 < limit
  · rw [flagsNibble_page limit h, decide_eq_true h]; decide
  · rw [flagsNibble_byte limit (BitVec.not_lt.mp h), decide_eq_false h]; decide

/-- Settles O10: byte 6 of the record holds the flags nibble at its top, whatever the limit's bits. -/
theorem encodedFlagsNibble : Obligations.EncodedFlagsNibble := by
  intro s hrun
  have hnibble := recByte_encodeRecord_flags s.baseIn s.limitIn s.accessIn
  have hbit : ∀ k < 4, (recByte (encodeRecord s.baseIn s.limitIn s.accessIn) 6).getLsbD (4 + k) =
      (flagsNibble s.limitIn).getLsbD k := fun k hk => by rw [getLsbD_high_nibble _ k hk, hnibble]
  obtain ⟨hsize, hlong, havail, hgran⟩ := flagsNibble_bits s.limitIn
  exact ⟨_, exec_running .encode s rfl hrun, fun h => hnibble.trans (flagsNibble_byte _ h),
    fun h => hnibble.trans (flagsNibble_page _ h), (hbit 2 (by decide)).trans hsize, (hbit 1 (by decide)).trans hlong,
    (hbit 0 (by decide)).trans havail, (hbit 3 (by decide)).trans hgran⟩

/-! ### Single steps of the host -/

/-- Settles O5: the event takes the bytes from the program and runs what they decode to. -/
theorem stepRunsDecoded : Obligations.StepRunsDecoded := by
  constructor
  · intro s c rest i hp hd
    rw [step_cons s _ rest hp, performEvent, hd]
    rfl
  · intro s b0 b1 b2 rest i hp hd
    rw [step_cons s _ rest hp, performEvent, hd]
    rfl

theorem step_readRes (s : State) (rest : List Event) (hp : s.pending = .readRes :: rest) :
    step s = .next (s.popEvent rest).readRes := by
  rw [step_cons s _ rest hp, performEvent]

theorem readRes_written (s : State) (v : Record) (hrun : s.running) (hv : s.res = some v) :
    s.readRes = s.saw (some (.res v)) := by
  simp [State.readRes, hrun, hv]

theorem readRes_unwritten (s : State) (hrun : s.running) (hv : s.res = none) :
    s.readRes = (s.saw none).raise .readUnwritten := by
  simp [State.readRes, hrun, hv]

/-- Settles O39: the step is the read's own effect, and `READ_UNWRITTEN` has code 7. -/
theorem hostReadsRegisters : Obligations.HostReadsRegisters := by
  intro s rest
  refine ⟨fun hp => ?_, fun v hrun hp hv => ?_, fun hrun hp hv => ?_⟩
  · rw [step_cons s _ rest hp]
    rfl
  · rw [step_readRes s rest hp, readRes_written (s.popEvent rest) v hrun hv]
    rfl
  · refine ⟨statusFaulted s.status 7#4, ?_, recordsFault_statusFaulted s.status 7#4⟩
    rw [step_readRes s rest hp, readRes_unwritten (s.popEvent rest) hrun hv]
    rfl

/-- A running block takes a write to a port (R18). -/
theorem setPort_running (s : State) (k : State → State) (hrun : s.running) : s.setPort k = .next (k s) :=
  accept_running s k hrun

/-- Settles O40: each `SET` line is a port write on the block whose program no longer lists it. -/
theorem setWritesItsPort : Obligations.SetWritesItsPort := by
  intro s rest hrun
  have hport : ∀ k, (s.popEvent rest).setPort k = .next (k (s.popEvent rest)) :=
    fun k => setPort_running (s.popEvent rest) k hrun
  refine ⟨fun v hp => ?_, fun v hp => ?_, fun v hp => ?_, fun v hp => ?_⟩ <;>
    exact (step_cons s _ rest hp).trans (hport _)

end Sys2Proof.Machine
end

