-- ==== Sys2Proof/Proofs/TableMemory.lean ====
section
/-!
The table in linear memory (20_memory.md): the order its bytes read in (R32), that CONSTRUCT writes all of it or none
(R38), and which steps change a byte of memory (R36, R37, R101).
-/

namespace Sys2Proof.Machine

/-! ### Reading the table -/

/-- A read returns the list whose bytes stand at the rising addresses. -/
theorem memRead_eq_map_some (m : Memory) (a n : Nat) (bs : List Byte) (hlen : bs.length = n)
    (h : ∀ k < n, memGet m (a + k) = bs[k]?) : memRead m a n = bs.map some := by
  subst hlen
  apply List.ext_getElem?
  intro k
  rw [List.getElem?_map]
  by_cases hk : k < bs.length
  · rw [memRead_getElem? _ _ _ _ hk, h k hk, List.getElem?_eq_getElem hk, Option.map_some]
  · rw [List.getElem?_eq_none (by simpa using hk), List.getElem?_eq_none (by simpa using hk), Option.map_none]

/-- Byte `j` of a record as `MemWrite` lays it out (R9, R32). -/
theorem leBytes_record_getElem? (r : Record) (j : Nat) (hj : j < descBytes) :
    (leBytes descBytes r.toNat)[j]? = some (recByte r j) := by
  rw [leBytes_getElem? _ _ _ hj]
  congr 1
  apply BitVec.eq_of_toNat_eq
  rw [recByte_toNat, BitVec.toNat_ofNat, Nat.pow_mul]

/-- An intact table, byte by byte from an offset inside an entry. -/
theorem State.tableIntact.memGet_entry {s : State} (ht : s.tableIntact) {i k j : Nat} (hi : i < 4) (hk : k + j < 8) :
    memGet s.mem (s.tableBase.toNat + 8 * i + k + j) = some (recByte (tableEntry i) (k + j)) := by
  rw [Nat.add_assoc _ k j]
  exact ht i hi (k + j) hk

/-- An intact entry reads as the eight bytes that `MemWrite` laid out (R37). -/
theorem State.tableIntact.memRead_entry {s : State} (ht : s.tableIntact) {i : Nat} (hi : i < 4) :
    memRead s.mem (s.tableBase.toNat + 8 * i) 8 = (leBytes descBytes (tableEntry i).toNat).map some := by
  refine memRead_eq_map_some _ _ _ _ (leBytes_length _ _) fun j hj => ?_
  rw [leBytes_record_getElem? _ j hj]
  exact ht i hi j hj

theorem State.tableIntact.readsInOrder {s : State} (ht : s.tableIntact) : s.tableReadsInOrder := by
  intro i hi
  refine ⟨fun j hj => ?_, fun k n hkn j hj => ?_, ?_⟩
  · exact congrArg (· :: []) (ht i hi j hj)
  · rw [memRead_getElem? _ _ _ _ hj, ht.memGet_entry hi (by omega)]
  · have hfits : (tableEntry i).toNat < 256 ^ descBytes := (tableEntry i).isLt
    rw [ht.memRead_entry hi, leNumber_leBytes, Nat.mod_eq_of_lt hfits]

/-- Settles O43: a running block that meets the invariant has its table intact, and an intact table reads in order. -/
theorem tableReadsInRecordOrder : Obligations.TableReadsInRecordOrder :=
  ⟨fun _ hs hrun hi => (hs.table_of_running hrun hi).readsInOrder, fun _ ht => ht.readsInOrder⟩

/-! ### Writing the table -/

/-- The 32 bytes of R94 are the four entries' bytes in order. -/
theorem tableImage_getElem? : ∀ k < 32, tableImage[k]? = some (recByte (tableEntry (k / 8)) (k % 8)) := by decide

theorem holdsTable_writeTable (b : Word) (m : Memory) : holdsTable (writeTable b m) b := by
  refine memRead_eq_map_some _ _ _ _ rfl fun k hk => ?_
  have hsize : tableSize = 32 := rfl
  rw [memGet_writeTable, if_pos (by omega), Nat.add_sub_cancel_left, tableImage_getElem? k hk]

theorem sameOutsideTable_writeTable (b : Word) (m : Memory) : sameOutsideTable m (writeTable b m) b := by
  intro a ha
  have hsize : tableSize = 32 := rfl
  rw [memGet_writeTable, if_neg (by omega)]

/-- Settles O24: of CONSTRUCT's four outcomes two write no memory, and the others write the whole table before the
dispatch decides between install and privilege fault. -/
theorem constructIsAtomic : Obligations.ConstructIsAtomic := by
  intro s t h
  obtain ⟨-, hrun, rfl⟩ := (exec_eq_next .construct s t).mp h
  have hheld := holdsTable_writeTable s.tableBase s.mem
  have hkept := sameOutsideTable_writeTable s.tableBase s.mem
  rcases construct_cases s with ⟨-, heq⟩ | ⟨-, -, heq⟩ | ⟨-, -, -, heq⟩ | ⟨-, -, -, heq⟩ <;>
    rw [instrEffect, heq]
  · exact .inl ⟨rfl, rfl, raise_life s _, raise_faulted s _⟩
  · exact .inl ⟨rfl, rfl, raise_life s _, raise_faulted s _⟩
  · exact .inr ⟨by simpa using hheld, by simpa using hkept,
      .inr ⟨by simp, by simp, raise_faulted _ _, raise_cause _ _⟩⟩
  · have hgdtr : gdtrOfRecord (loadRecord s.tableBase) = ⟨31#16, s.tableBase⟩ := gdtrOfRecord_loadRecord _
    exact .inr ⟨by simpa using hheld, by simpa using hkept,
      .inl ⟨by simpa using hgdtr, markInstalled_life _, by simpa using hrun⟩⟩

/-! ### Which steps change memory -/

@[simp] theorem readRes_mem (s : State) : s.readRes.mem = s.mem := by
  rcases readRes_cases s with ⟨-, heq⟩ | ⟨-, -, heq⟩ | ⟨-, v, -, heq⟩ <;> simp [heq]

/-- The bytes are written whether or not the watch sees them (R50). -/
@[simp] theorem hostWrite_mem (s : State) (a : Word) (n v : Nat) :
    (s.hostWrite a n v).mem = memWrite s.mem a.toNat n v := by
  rcases hostWrite_cases s a n v with ⟨-, heq⟩ | ⟨-, heq⟩ <;> simp [heq]

/-- CONSTRUCT leaves memory, or writes the table on a block that is not yet Installed (R37, R85). -/
theorem construct_mem (s : State) :
    s.construct.mem = s.mem ∨ (¬ s.installed ∧ s.construct.mem = writeTable s.tableBase s.mem) := by
  rcases construct_cases s with ⟨-, heq⟩ | ⟨-, -, heq⟩ | ⟨hni, -, -, heq⟩ | ⟨hni, -, -, heq⟩
  · exact .inl (by rw [heq, raise_mem])
  · exact .inl (by rw [heq, raise_mem])
  · exact .inr ⟨hni, by simp [heq]⟩
  · exact .inr ⟨hni, by simp [heq]⟩

/-- What an event does to memory: nothing, unless it is a reset, a host write or the CONSTRUCT command (R36, R37). -/
theorem eventEffect_mem (e : Event) (s t : State) (he : eventEffect e s t) :
    t.mem = s.mem ∨ (∃ p, e = .reset p) ∨
    (∃ a n v, e = .hostWrite a n v ∧ t.mem = memWrite s.mem a.toNat n v) ∨
    (e = .command 0x10#8 ∧ ¬ s.installed ∧ t.mem = writeTable s.tableBase s.mem) := by
  cases e with
  | reset p => exact .inr (.inl ⟨p, rfl⟩)
  | hostWrite a n v =>
    obtain ⟨-, -, rfl⟩ := he
    exact .inr (.inr (.inl ⟨a, n, v, rfl, hostWrite_mem s a n v⟩))
  | command c =>
    obtain ⟨-, ⟨i, hd, rfl⟩ | ⟨err, -, rfl⟩⟩ := he
    · by_cases hi : i = .construct
      · subst hi
        obtain rfl := decode_command_construct c hd
        exact (construct_mem (s.writeCmd 0x10#8)).imp_right fun hwritten => .inr (.inr ⟨rfl, hwritten⟩)
      · exact .inl (instrEffect_keeps_store i _ hi).1
    · exact .inl rfl
  | tableLoad b0 b1 b2 =>
    obtain ⟨-, -, rfl⟩ := he
    rcases dispatchLoad_cases s (fun s => s) with ⟨-, heq⟩ | ⟨-, heq⟩ <;> exact .inl (by rw [heq]; rfl)
  | readRes => obtain rfl := he; exact .inl (readRes_mem s)
  | readStatus => obtain rfl := he; exact .inl rfl
  | hostRead a n => obtain ⟨-, -, rfl⟩ := he; exact .inl rfl
  | setBaseIn v | setLimitIn v | setAccessIn v | setRecIn v => obtain ⟨-, rfl⟩ := he; exact .inl rfl

/-- Settles O31: the two events that write memory leave every byte outside the range they write. -/
theorem memoryChangesOnlyWhereWritten : Obligations.MemoryChangesOnlyWhereWritten := by
  intro s t a h hne
  rcases step_cases s t h with ⟨-, -, rfl⟩ | ⟨e, rest, hp, he⟩
  · exact absurd rfl hne
  rcases eventEffect_mem e _ t he with hm | ⟨p, rfl⟩ | ⟨addr, n, v, rfl, hm⟩ | ⟨rfl, hni, hm⟩
  · exact absurd (by rw [hm, popEvent_mem]) hne
  · exact .inl ⟨p, rest, hp⟩
  · have hcovered : ¬ (a < addr.toNat ∨ addr.toNat + n ≤ a) := fun hout =>
      hne (by rw [hm, popEvent_mem, memGet_memWrite_outside _ _ _ _ _ hout])
    exact .inr (.inl ⟨addr, n, v, rest, hp, by omega, by omega⟩)
  · have hregion : ¬ (a < s.tableBase.toNat ∨ s.tableBase.toNat + 32 ≤ a) := fun hout =>
      hne (by rw [hm]; exact sameOutsideTable_writeTable s.tableBase s.mem a hout)
    exact .inr (.inr ⟨rest, hp, hni, by omega, by omega⟩)

end Sys2Proof.Machine
end

/-!
The encoding (30_encoding.md): decode and encode agree both ways (R52, R60, R64), a byte outside the opcode map is
reserved and faults (R61), and the table load takes its operand from `PD` (R60, R89).
-/

namespace Sys2Proof.Machine

/-! ### ModRM's fields -/

/-- The three fields read back from the byte they are joined in (R60). -/
theorem modrm_fields_append (mod : BitVec 2) (reg rm : BitVec 3) :
    modField (mod ++ reg ++ rm : Byte) = mod ∧ regField (mod ++ reg ++ rm : Byte) = reg ∧
    rmField (mod ++ reg ++ rm : Byte) = rm := by
  revert mod reg rm; decide

/-- The three fields are all of the byte: none of its bits is dropped (R60). -/
theorem modrm_append_fields (m : Byte) : (modField m ++ regField m ++ rmField m : Byte) = m := by
  revert m; decide

/-! ### Decode and encode -/

theorem decode_encode (i : Instr) (hi : i.wellFormed = true) : decode (encode i) = .ok i := by
  cases i with
  | lgdt mod rm =>
    obtain ⟨hmod, hreg, hrm⟩ := modrm_fields_append mod 0b010#3 rm
    have hmemory : mod ≠ 0b11#2 := by simpa [Instr.wellFormed] using hi
    simp [encode, decode, decodeTableLoad, hmod, hreg, hrm, hmemory]
  | _ => rfl

/-- The bytes that decode to an instruction are its encoding, whether a command's one or the table load's three. -/
theorem encode_of_decode (bs : List Byte) (i : Instr) (h : decode bs = .ok i) : encode i = bs := by
  match bs, h with
  | [c], h =>
    rcases decode_command c i h with ⟨rfl, rfl⟩ | ⟨rfl, rfl⟩ | ⟨rfl, rfl⟩ | ⟨rfl, rfl⟩ | ⟨rfl, rfl⟩ | ⟨rfl, rfl⟩ |
      ⟨rfl, rfl⟩ | ⟨rfl, rfl⟩ <;> rfl
  | [b0, b1, m], h =>
    obtain ⟨rfl, rfl, hreg, -, rfl⟩ := decode_tableLoad b0 b1 m i h
    rw [encode, ← hreg, modrm_append_fields]

/-- Settles O2: encode's case for each instruction, and decode's two lengths of accepted bytes, undo each other. -/
theorem decodeEncodeAgree : Obligations.DecodeEncodeAgree :=
  ⟨decode_encode, fun bs i h => ⟨decode_wellFormed bs i h, encode_of_decode bs i h⟩⟩

/-! ### The 256 command bytes -/

/-- The command bytes of the opcode map, in the order of its rows (R52). -/
def opcodeMap : List Byte := [0x00#8, 0x01#8, 0x02#8, 0x03#8, 0x04#8, 0x10#8, 0x11#8, 0x12#8]

/-- Every byte of the opcode map is the encoding of an instruction (R52). -/
theorem exists_encode_of_mem_opcodeMap :
    ∀ c ∈ opcodeMap, ∃ i : Instr, i.wellFormed = true ∧ encode i = [c] := by
  simp only [opcodeMap, List.forall_mem_cons]
  exact ⟨⟨.nop, rfl, rfl⟩, ⟨.encode, rfl, rfl⟩, ⟨.decodeBase, rfl, rfl⟩, ⟨.decodeLimit, rfl, rfl⟩,
    ⟨.decodeGran, rfl, rfl⟩, ⟨.construct, rfl, rfl⟩, ⟨.codeSel, rfl, rfl⟩, ⟨.dataSel, rfl, rfl⟩,
    List.forall_mem_nil _⟩

theorem mem_opcodeMap_of_decode (c : Byte) (i : Instr) (h : decode [c] = .ok i) : c ∈ opcodeMap := by
  rcases decode_command c i h with ⟨rfl, -⟩ | ⟨rfl, -⟩ | ⟨rfl, -⟩ | ⟨rfl, -⟩ | ⟨rfl, -⟩ | ⟨rfl, -⟩ |
    ⟨rfl, -⟩ | ⟨rfl, -⟩ <;> simp [opcodeMap]

/-- The decoder rejects a command byte for one reason alone (R61). -/
theorem decode_command_error (c : Byte) (e : DecodeError) (h : decode [c] = .error e) : e = .reservedCommand := by
  simp only [decode, decodeCommand, decodeCodec, decodeLoader] at h
  repeat' split at h
  all_goals cases h
  all_goals rfl

theorem decode_reserved (c : Byte) (hc : c ∉ opcodeMap) : decode [c] = .error .reservedCommand := by
  cases hd : decode [c] with
  | ok i => exact absurd (mem_opcodeMap_of_decode c i hd) hc
  | error e => rw [decode_command_error c e hd]

/-- Settles O3: a byte of the map decodes to what it encodes, and any other byte is reserved. -/
theorem commandDecodeTotal : Obligations.CommandDecodeTotal := by
  refine fun c => ⟨fun hc => ?_, decode_reserved c⟩
  obtain ⟨i, hi, henc⟩ := exists_encode_of_mem_opcodeMap c hc
  exact ⟨i, henc ▸ decode_encode i hi, henc⟩

/-- Settles O1: each word is the encoding of its instruction, which decode inverts. -/
theorem specWordsDecode : Obligations.SpecWordsDecode :=
  ⟨decode_encode .nop rfl, decode_encode .encode rfl, decode_encode .decodeBase rfl, decode_encode .decodeLimit rfl,
    decode_encode .decodeGran rfl, decode_encode .construct rfl, decode_encode .codeSel rfl,
    decode_encode .dataSel rfl, decode_encode (.lgdt 0b00#2 0b101#3) rfl, decode_encode (.lgdt 0b10#2 0b110#3) rfl⟩

/-! ### Reserved commands -/

/-- The three reserved ranges of R61 are what the opcode map of R52 leaves of the 256 values. -/
theorem reserved_iff_not_mem_opcodeMap (c : Byte) :
    ((0x05#8 ≤ c ∧ c ≤ 0x0F#8) ∨ (0x13#8 ≤ c ∧ c ≤ 0x1F#8) ∨ 0x20#8 ≤ c) ↔ c ∉ opcodeMap := by
  revert c; decide

theorem step_command_undecoded (s : State) (c : Byte) (rest : List Event) (e : DecodeError) (hrun : s.running)
    (hp : s.pending = .command c :: rest) (hd : decode [c] = .error e) :
    step s = .next (((s.popEvent rest).writeCmd c).raise .illegalCommand) := by
  rw [step_cons s _ rest hp, performEvent, hd]
  exact accept_running ((s.popEvent rest).writeCmd c) _ hrun

/-- Settles O4: a reserved byte does not decode, and the step then takes the fault of code 1 and no more. -/
theorem reservedCommandFaults : Obligations.ReservedCommandFaults := by
  intro s c rest hrun hp hc
  have hd := decode_reserved c ((reserved_iff_not_mem_opcodeMap c).mp hc)
  exact ⟨statusFaulted s.status 1#4, step_command_undecoded s c rest _ hrun hp hd,
    recordsFault_statusFaulted s.status 1#4⟩

/-! ### The table load on its own -/

/-- The two fields of a load record as numbers: LIMIT in its low 16 bits, BASE above them (R58). -/
theorem gdtrOfRecord_eq_ofNat (pd : LoadRecord) :
    gdtrOfRecord pd = ⟨BitVec.ofNat 16 pd.toNat, BitVec.ofNat 32 (pd.toNat / 65536)⟩ := by
  rw [gdtrOfRecord, BitVec.extractLsb', BitVec.extractLsb', Nat.shiftRight_zero, Nat.shiftRight_eq_div_pow]

/-- Settles O27: with privilege the dispatch is `GDTR <- PD` alone, for every form that names memory. -/
theorem tableLoadWritesGdtr : Obligations.TableLoadWritesGdtr := by
  intro s mod rm hrun hcpl hmod
  have hi : (Instr.lgdt mod rm).wellFormed = true := by simpa [Instr.wellFormed] using hmod
  rw [exec_running (.lgdt mod rm) s hi hrun, instrEffect, dispatchLoad_privileged s _ hcpl, State.loadGdtr,
    gdtrOfRecord_eq_ofNat]

end Sys2Proof.Machine

/-!
The codec (40_codec.md): what each command writes to `RES` (R66, R67, R74, R75, R77), where ENCODE places its fields
and that its arithmetic is exact (R70, R72), what decode reads back from an encoded record (R76, R78 to R81), and that
the results depend on the ports alone (R83).
-/

namespace Sys2Proof.Machine

/-! ### The commands on a running block -/

theorem exec_encode_running (s : State) (v : Record) (hrun : s.running)
    (hv : encodeRecord s.baseIn s.limitIn s.accessIn = v) : exec .encode s = .next { s with res := some v } :=
  hv ▸ exec_running .encode s rfl hrun

theorem exec_decodeBase_running (s : State) (v : Record) (hrun : s.running)
    (hv : (recBase s.recIn).setWidth 64 = v) : exec .decodeBase s = .next { s with res := some v } :=
  hv ▸ exec_running .decodeBase s rfl hrun

theorem exec_decodeLimit_running (s : State) (v : Record) (hrun : s.running)
    (hv : (decodeLimitOf s.recIn).setWidth 64 = v) : exec .decodeLimit s = .next { s with res := some v } :=
  hv ▸ exec_running .decodeLimit s rfl hrun

theorem exec_decodeGran_running (s : State) (v : Record) (hrun : s.running)
    (hv : decodeGranOf s.recIn = v) : exec .decodeGran s = .next { s with res := some v } :=
  hv ▸ exec_running .decodeGran s rfl hrun

/-- Settles O6: NOP's effect is the state itself. -/
theorem nopChangesNothing : Obligations.NopChangesNothing :=
  ⟨rfl, fun s hrun => exec_running .nop s rfl hrun, fun s hf => exec_faulted .nop s rfl hf⟩

/-- Settles O20: each result is a function of the ports that its command reads. -/
theorem codecDependsOnPortsOnly : Obligations.CodecDependsOnPortsOnly := by
  intro s s' hrun hrun'
  constructor
  · intro hbase hlimit haccess
    exact ⟨_, exec_encode_running s _ hrun rfl,
      exec_encode_running s' _ hrun' (by rw [hbase, hlimit, haccess])⟩
  · intro hrec
    exact ⟨⟨_, exec_decodeBase_running s _ hrun rfl, exec_decodeBase_running s' _ hrun' (by rw [hrec])⟩,
      ⟨_, exec_decodeLimit_running s _ hrun rfl, exec_decodeLimit_running s' _ hrun' (by rw [hrec])⟩,
      ⟨_, exec_decodeGran_running s _ hrun rfl, exec_decodeGran_running s' _ hrun' (by rw [hrec])⟩⟩

/-! ### What decode reads from a record -/

theorem recBase_toNat_fields (r : Record) :
    (recBase r).toNat = r.toNat / 2 ^ 56 * 2 ^ 24 + r.toNat / 2 ^ 16 % 2 ^ 24 := by
  have hr := r.isLt
  simp only [recBase_toNat, recByte_toNat]
  omega

theorem recRawLimit_toNat_fields (r : Record) :
    (recRawLimit r).toNat = r.toNat / 2 ^ 48 % 16 * 65536 + r.toNat % 65536 := by
  simp only [recRawLimit_toNat, recByte_toNat]
  omega

theorem getLsbD_recByte (r : Record) (i k : Nat) (hk : k < 8) : (recByte r i).getLsbD k = r.getLsbD (8 * i + k) := by
  simp [recByte, hk]

theorem pageGranular_iff (b6 : Byte) : pageGranular b6 = true ↔ b6.getLsbD 7 = true ∧ b6.getLsbD 6 = true := by
  revert b6; decide

/-- The two bits of R76 in the 64-bit view. -/
theorem recPageGranular_iff (r : Record) :
    recPageGranular r = true ↔ r.getLsbD 55 = true ∧ r.getLsbD 54 = true := by
  rw [recPageGranular, pageGranular_iff, getLsbD_recByte r 6 7 (by decide), getLsbD_recByte r 6 6 (by decide)]

/-- Bits 7 and 6 of byte 6 are both 1 exactly in the nibbles 0xC to 0xF. -/
theorem recPageGranular_eq_nibble (r : Record) : recPageGranular r = decide (0xC#4 ≤ r.extractLsb' 52 4) := by
  have hnibble : (r.extractLsb' 52 4).toNat = (recByte r 6).toNat / 16 := by
    rw [BitVec.extractLsb'_toNat, recByte_toNat, Nat.shiftRight_eq_div_pow]
    omega
  have htop : (0xC#4).toNat = 12 := rfl
  rw [recPageGranular, pageGranular_eq, decide_eq_decide, BitVec.le_def, hnibble, htop]
  omega

/-- Settles O11: the base is the number that bytes 7, 4, 3, 2 stand for. -/
theorem decodeBaseResult : Obligations.DecodeBaseResult := by
  refine ⟨rfl, fun s hrun => exec_decodeBase_running s _ hrun ?_⟩
  rw [← BitVec.ofNat_toNat, recBase_toNat_fields]

/-- Settles O12: bits 55 and 54 choose between the raw limit and its 4 KiB units. -/
theorem decodeLimitResult : Obligations.DecodeLimitResult := by
  refine ⟨rfl, fun s raw hrun hraw => ?_⟩
  rw [← recRawLimit_toNat_fields] at hraw
  refine ⟨fun hpage => exec_decodeLimit_running s _ hrun ?_, fun hbyte => exec_decodeLimit_running s _ hrun ?_⟩
  · rw [← BitVec.ofNat_toNat, decodeLimitOf_toNat, if_pos ((recPageGranular_iff _).mpr hpage), hraw]
  · rw [← BitVec.ofNat_toNat, decodeLimitOf_toNat, if_neg (mt (recPageGranular_iff _).mp hbyte), hraw]

/-- Settles O13: the flag is the test on bits 55 and 54. -/
theorem decodeGranResult : Obligations.DecodeGranResult := by
  refine ⟨rfl, fun s hrun => exec_decodeGran_running s _ hrun ?_⟩
  simp only [decodeGranOf, recPageGranular_iff]

/-! ### The record ENCODE writes -/

/-- The mask of the low `n` bits keeps the remainder. -/
theorem and_mask_toNat (v : Word) (n : Nat) (hn : n ≤ 32) :
    (v &&& BitVec.ofNat 32 (2 ^ n - 1)).toNat = v.toNat % 2 ^ n := by
  have hpow : 2 ^ n ≤ 2 ^ 32 := Nat.pow_le_pow_right (by decide) hn
  rw [BitVec.toNat_and, BitVec.toNat_ofNat, Nat.mod_eq_of_lt (by omega), Nat.and_two_pow_sub_one_eq_mod]

/-- A record as the number its bytes stand for (R9). -/
theorem record_toNat (r : Record) :
    r.toNat = (recByte r 0).toNat + 2 ^ 8 * (recByte r 1).toNat + 2 ^ 16 * (recByte r 2).toNat
      + 2 ^ 24 * (recByte r 3).toNat + 2 ^ 32 * (recByte r 4).toNat + 2 ^ 40 * (recByte r 5).toNat
      + 2 ^ 48 * (recByte r 6).toNat + 2 ^ 56 * (recByte r 7).toNat := by
  rw [← ofRecBytes_toNat, ofRecBytes_recByte]

/-- The six fields of an encoded record, each at its place in the 64-bit view (R67). -/
theorem encodeRecord_toNat (base limit : Word) (t : Byte) :
    (encodeRecord base limit t).toNat =
      base.toNat / 2 ^ 24 * 2 ^ 56 + ((flagsNibble limit).toNat * 2 ^ 52
        + ((encodeLimit limit).toNat / 2 ^ 16 * 2 ^ 48 + (t.toNat * 2 ^ 40
          + (base.toNat % 2 ^ 24 * 2 ^ 16 + (encodeLimit limit).toNat % 2 ^ 16)))) := by
  obtain ⟨h0, h1, h2, h3, h4, h5, h6, h7⟩ := recByte_encodeRecord base limit t
  rw [record_toNat, h0, h1, h2, h3, h4, h5, h6, h7]
  omega

/-- A field shifted above a number that ends below it adds to that number. -/
theorem field_or_toNat {w : Nat} (a : BitVec w) {b : Record} (n : Nat) {m : Nat} (hb : b.toNat = m)
    (ha : a.toNat * 2 ^ n < 2 ^ 64) (hm : m < 2 ^ n) : ((a.setWidth 64 <<< n) ||| b).toNat = a.toNat * 2 ^ n + m := by
  have hfits : a.toNat < 2 ^ 64 := lt_of_le_of_lt (Nat.le_mul_of_pos_right _ (by positivity)) ha
  rw [BitVec.toNat_or, BitVec.toNat_shiftLeft, BitVec.toNat_setWidth, Nat.mod_eq_of_lt hfits, Nat.shiftLeft_eq,
    Nat.mod_eq_of_lt ha, ← Nat.shiftLeft_eq, hb, ← Nat.shiftLeft_add_eq_or_of_lt hm]

/-- The closed form of R67 for any field values that fit their places: no two terms share a bit, so it is their sum. -/
theorem closedForm_toNat (high limHigh low limLow : Word) (flags : BitVec 4) (t : Byte) (hhigh : high.toNat < 2 ^ 8)
    (hlimHigh : limHigh.toNat < 2 ^ 4) (hlow : low.toNat < 2 ^ 24) (hlimLow : limLow.toNat < 2 ^ 16) :
    ((high.setWidth 64 <<< 56) ||| (flags.setWidth 64 <<< 52) ||| (limHigh.setWidth 64 <<< 48)
        ||| (t.setWidth 64 <<< 40) ||| (low.setWidth 64 <<< 16) ||| limLow.setWidth 64 : Record).toNat =
      high.toNat * 2 ^ 56 + (flags.toNat * 2 ^ 52 + (limHigh.toNat * 2 ^ 48 + (t.toNat * 2 ^ 40
        + (low.toNat * 2 ^ 16 + limLow.toNat)))) := by
  have hflags := flags.isLt
  have ht := t.isLt
  have sum0 : (limLow.setWidth 64 : Record).toNat = limLow.toNat := by rw [BitVec.toNat_setWidth]; omega
  have sum16 := field_or_toNat low 16 sum0 (by omega) (by omega)
  have sum40 := field_or_toNat t 40 sum16 (by omega) (by omega)
  have sum48 := field_or_toNat limHigh 48 sum40 (by omega) (by omega)
  have sum52 := field_or_toNat flags 52 sum48 (by omega) (by omega)
  simp only [BitVec.or_assoc]
  exact field_or_toNat high 56 sum52 (by omega) (by omega)

/-- Placing the fields byte by byte gives the closed form (R67). -/
theorem encodeRecord_closedForm (base limit : Word) (t : Byte) :
    encodeRecord base limit t =
      ((base >>> 24).setWidth 64 <<< 56) ||| ((flagsNibble limit).setWidth 64 <<< 52)
        ||| (((encodeLimit limit >>> 16) &&& 0xF#32).setWidth 64 <<< 48) ||| (t.setWidth 64 <<< 40)
        ||| ((base &&& 0xFFFFFF#32).setWidth 64 <<< 16) ||| (encodeLimit limit &&& 0xFFFF#32).setWidth 64 := by
  have hbase := base.isLt
  have hlim := encodeLimit_lt limit
  have hhigh : (base >>> 24).toNat = base.toNat / 2 ^ 24 := Nat.shiftRight_eq_div_pow _ _
  have hlimHigh : ((encodeLimit limit >>> 16) &&& 0xF#32).toNat = (encodeLimit limit).toNat / 2 ^ 16 := by
    have hmask := and_mask_toNat (encodeLimit limit >>> 16) 4 (by decide)
    rw [BitVec.toNat_ushiftRight, Nat.shiftRight_eq_div_pow] at hmask
    exact hmask.trans (Nat.mod_eq_of_lt (by omega))
  have hlow : (base &&& 0xFFFFFF#32).toNat = base.toNat % 2 ^ 24 := and_mask_toNat base 24 (by decide)
  have hlimLow : (encodeLimit limit &&& 0xFFFF#32).toNat = (encodeLimit limit).toNat % 2 ^ 16 :=
    and_mask_toNat _ 16 (by decide)
  apply BitVec.eq_of_toNat_eq
  rw [closedForm_toNat _ _ _ _ _ _ (by omega) (by omega) (by omega) (by omega), hhigh, hlimHigh, hlow, hlimLow,
    encodeRecord_toNat]

theorem encodeLimit_byte (limit : Word) (h : limit ≤ 65536#32) : encodeLimit limit = limit := if_pos h

theorem encodeLimit_page (limit : Word) (h : 65536#32 < limit) :
    encodeLimit limit = if limit &&& 0xFFF#32 ≠ 0xFFF#32 then (limit >>> 12) - 1#32 else limit >>> 12 :=
  if_neg (BitVec.not_le.mpr h)

/-- Settles O7: `lim20` and the flags are the model's, and its bytes make up the closed form. -/
theorem encodeWritesClosedForm : Obligations.EncodeWritesClosedForm := by
  refine ⟨rfl, fun s hrun => ⟨encodeLimit s.limitIn, flagsNibble s.limitIn, fun hbyte => ?_, fun hpage => ?_, ?_⟩⟩
  · exact ⟨encodeLimit_byte _ hbyte, flagsNibble_byte _ hbyte⟩
  · rw [encodeLimit_page _ hpage]
    exact ⟨flagsNibble_page _ hpage, fun hclear => if_pos hclear, fun hset => if_neg (not_not_intro hset)⟩
  · exact exec_encode_running s _ hrun (encodeRecord_closedForm _ _ _)

/-- A value is a word's field when it is the field's number. -/
theorem eq_extractLsb'_of_toNat {v : Word} {i n : Nat} {f : BitVec n} (h : f.toNat = v.toNat / 2 ^ i % 2 ^ n) :
    f = v.extractLsb' i n :=
  BitVec.eq_of_toNat_eq (by rw [h, BitVec.extractLsb'_toNat, Nat.shiftRight_eq_div_pow])

/-- The low nibble of byte 6 is the top of the limit field, clear of the flags above it (R70). -/
theorem recByte_encodeRecord_limitHigh (base limit : Word) (t : Byte) :
    (recByte (encodeRecord base limit t) 6).extractLsb' 0 4 = (encodeLimit limit).extractLsb' 16 4 := by
  obtain ⟨-, -, -, -, -, -, h6, -⟩ := recByte_encodeRecord base limit t
  have hlim := encodeLimit_lt limit
  apply eq_extractLsb'_of_toNat
  rw [BitVec.extractLsb'_toNat, h6, Nat.shiftRight_eq_div_pow]
  omega

/-- Settles O9: each byte has the number of its field, and the two nibbles of byte 6 do not meet. -/
theorem encodePlacesFields : Obligations.EncodePlacesFields := by
  intro s hrun
  obtain ⟨h0, h1, h2, h3, h4, h5, -, h7⟩ := recByte_encodeRecord s.baseIn s.limitIn s.accessIn
  have hbase := s.baseIn.isLt
  exact ⟨_, exec_encode_running s _ hrun rfl, eq_extractLsb'_of_toNat (by omega), eq_extractLsb'_of_toNat h1,
    recByte_encodeRecord_limitHigh _ _ _, recByte_encodeRecord_flags _ _ _, eq_extractLsb'_of_toNat (by omega),
    eq_extractLsb'_of_toNat h3, eq_extractLsb'_of_toNat h4, eq_extractLsb'_of_toNat (by omega), h5⟩

/-! ### Decode after encode -/

theorem recBase_encodeRecord (base limit : Word) (t : Byte) : recBase (encodeRecord base limit t) = base := by
  obtain ⟨-, -, h2, h3, h4, -, -, h7⟩ := recByte_encodeRecord base limit t
  apply BitVec.eq_of_toNat_eq
  rw [recBase_toNat, h2, h3, h4, h7]
  omega

theorem recRawLimit_encodeRecord (base limit : Word) (t : Byte) :
    recRawLimit (encodeRecord base limit t) = encodeLimit limit := by
  obtain ⟨h0, h1, -, -, -, -, h6, -⟩ := recByte_encodeRecord base limit t
  have hlim := encodeLimit_lt limit
  apply BitVec.eq_of_toNat_eq
  rw [recRawLimit_toNat, h0, h1, h6]
  omega

theorem recAccess_encodeRecord (base limit : Word) (t : Byte) : recAccess (encodeRecord base limit t) = t := by
  obtain ⟨-, -, -, -, -, h5, -, -⟩ := recByte_encodeRecord base limit t
  exact h5

theorem gt_byteGranMax_iff (limit : Word) : 65536#32 < limit ↔ 65536 < limit.toNat := by
  rw [BitVec.lt_def]; rfl

/-- Decode reads the granularity ENCODE chose (R76). -/
theorem recPageGranular_encodeRecord (base limit : Word) (t : Byte) :
    recPageGranular (encodeRecord base limit t) = decide (65536#32 < limit) := by
  obtain ⟨-, -, -, -, -, -, h6, -⟩ := recByte_encodeRecord base limit t
  have hlim := encodeLimit_lt limit
  rw [recPageGranular, pageGranular_eq, decide_eq_decide, gt_byteGranMax_iff, h6, flagsNibble_toNat]
  split <;> omega

/-- The limit that comes back: itself in the byte range and at the end of a 4 KiB unit, else the last byte of the unit
before (R78, R79). -/
theorem decodeLimitOf_encodeRecord_toNat (base limit : Word) (t : Byte) :
    (decodeLimitOf (encodeRecord base limit t)).toNat =
      if limit.toNat ≤ 65536 ∨ limit.toNat % 4096 = 4095 then limit.toNat
      else limit.toNat - limit.toNat % 4096 - 1 := by
  simp only [decodeLimitOf_toNat, recPageGranular_encodeRecord, recRawLimit_encodeRecord, encodeLimit_toNat,
    decide_eq_true_eq, gt_byteGranMax_iff]
  split_ifs <;> omega

theorem decodeGranOf_encodeRecord (base limit : Word) (t : Byte) :
    decodeGranOf (encodeRecord base limit t) = if 65536#32 < limit then 1#64 else 0#64 := by
  simp only [decodeGranOf, recPageGranular_encodeRecord, decide_eq_true_eq]

/-- Settles O14: the two-bit test is a bound on the flags nibble, and ENCODE writes the nibble that passes it exactly
above 65536. -/
theorem granularityNeedsBothBits : Obligations.GranularityNeedsBothBits :=
  ⟨recPageGranular_eq_nibble, recPageGranular_encodeRecord⟩

/-- Settles O8: the numbers of the two branches, and the raw limit read back whole. -/
theorem encodeArithmeticExact : Obligations.EncodeArithmeticExact := by
  intro base limit t
  have hlimit := limit.isLt
  have hlim := encodeLimit_lt limit
  refine ⟨fun hbyte => ?_, fun hpage => ?_, by omega, recRawLimit_encodeRecord base limit t⟩
  · rw [encodeLimit_byte limit hbyte]
    exact ⟨rfl, hbyte⟩
  · rw [gt_byteGranMax_iff] at hpage
    rw [encodeLimit_toNat, if_neg (by omega)]
    split_ifs <;> omega

/-- Settles O17: the four base bytes come back in their order. -/
theorem baseRoundTrip : Obligations.BaseRoundTrip := fun s hrun =>
  ⟨_, exec_encode_running s _ hrun rfl,
    exec_decodeBase_running { s with recIn := _ } _ hrun (by rw [recBase_encodeRecord])⟩

/-- Settles O15: in the byte range the decoded limit is the limit. -/
theorem byteGranularRoundTrip : Obligations.ByteGranularRoundTrip := by
  intro s hrun hbyte
  have hlimit : decodeLimitOf (encodeRecord s.baseIn s.limitIn s.accessIn) = s.limitIn := by
    apply BitVec.eq_of_toNat_eq
    rw [decodeLimitOf_encodeRecord_toNat, if_pos (.inl hbyte)]
  exact ⟨_, exec_encode_running s _ hrun rfl,
    exec_decodeLimit_running { s with recIn := _ } _ hrun (by rw [hlimit]),
    exec_decodeGran_running { s with recIn := _ } _ hrun
      (by rw [decodeGranOf_encodeRecord, if_neg (BitVec.not_lt.mpr hbyte)])⟩

/-- Settles O16: in the page range the decoded limit is the limit rounded down to the end of a 4 KiB unit. -/
theorem pageGranularRoundsDown : Obligations.PageGranularRoundsDown := by
  intro s hrun hpage
  have hnumber := (gt_byteGranMax_iff _).mp hpage
  have hlimit := decodeLimitOf_encodeRecord_toNat s.baseIn s.limitIn s.accessIn
  refine ⟨_, (decodeLimitOf (encodeRecord s.baseIn s.limitIn s.accessIn)).toNat,
    exec_encode_running s _ hrun rfl, ?_, ?_, ?_, ?_,
    exec_decodeLimit_running { s with recIn := _ } _ hrun (BitVec.ofNat_toNat _ _).symm,
    exec_decodeGran_running { s with recIn := _ } _ hrun (by rw [decodeGranOf_encodeRecord, if_pos hpage])⟩
  all_goals
    rw [hlimit]
    split_ifs <;> omega

/-! ### Which limits share a record (R81) -/

/-- Of the limit, a record holds the 20-bit field and the granularity, and no more. -/
theorem encodeRecord_congr (base l l' : Word) (t : Byte) (hlim : encodeLimit l = encodeLimit l')
    (hgran : 65536#32 < l ↔ 65536#32 < l') : encodeRecord base l t = encodeRecord base l' t := by
  have hflags : flagsNibble l = flagsNibble l' := by
    apply BitVec.eq_of_toNat_eq
    simp only [gt_byteGranMax_iff, ← not_le, not_iff_not] at hgran
    simp only [flagsNibble_toNat, hgran]
  rw [encodeRecord, encodeRecord, hlim, hflags]

/-- Two limits of the page range with one count of 4 KiB units share their records. -/
theorem encodeRecord_page_congr (base l l' : Word) (t : Byte) (hl : 65536#32 < l) (hl' : 65536#32 < l')
    (hunits : (encodeLimit l).toNat = (encodeLimit l').toNat) : encodeRecord base l t = encodeRecord base l' t :=
  encodeRecord_congr base l l' t (BitVec.eq_of_toNat_eq hunits) (iff_of_true hl hl')

/-- The count of 4 KiB units in the page range (R69). -/
theorem encodeLimit_page_toNat (limit : Word) (h : 65536#32 < limit) :
    (encodeLimit limit).toNat =
      if limit.toNat % 4096 = 4095 then limit.toNat / 4096 else limit.toNat / 4096 - 1 := by
  rw [encodeLimit_toNat, if_neg (not_le.mpr ((gt_byteGranMax_iff limit).mp h))]

/-- Settles O18: base and access byte are read back from the record, and limits that agree in the unit count share
it. -/
theorem encodeInjectivity : Obligations.EncodeInjectivity := by
  refine ⟨fun b b' l l' t t' h => ⟨?_, ?_⟩, fun b l l' t hl hl' hunit hlow hlow' => ?_,
    fun b l l' t hl hl' hlow hunit hlow' => ?_⟩
  · rw [← recBase_encodeRecord b l t, h, recBase_encodeRecord]
  · rw [← recAccess_encodeRecord b l t, h, recAccess_encodeRecord]
  · apply encodeRecord_page_congr b l l' t hl hl'
    rw [encodeLimit_page_toNat l hl, encodeLimit_page_toNat l' hl', if_neg hlow, if_neg hlow', hunit]
  · apply encodeRecord_page_congr b l l' t hl hl'
    rw [encodeLimit_page_toNat l hl, encodeLimit_page_toNat l' hl', if_pos hlow, if_neg hlow', hunit,
      Nat.add_sub_cancel]

/-! ### Re-encoding a decoded record (R81) -/

/-- The limits 0x10001 to 0x10FFE: the page-granular ones whose record decodes into the byte range. -/
def DecodesBelowPageRange (l : Word) : Prop := 0x10001#32 ≤ l ∧ l ≤ 0x10FFE#32

theorem decodesBelowPageRange_iff (l : Word) :
    DecodesBelowPageRange l ↔ 65537 ≤ l.toNat ∧ l.toNat ≤ 69630 := by
  rw [DecodesBelowPageRange, BitVec.le_def, BitVec.le_def]; rfl

/-- They are the page-granular limits with raw limit 15. -/
theorem decodesBelowPageRange_iff_encodeLimit (l : Word) :
    DecodesBelowPageRange l ↔ 65536#32 < l ∧ encodeLimit l = 15#32 := by
  have hfifteen : encodeLimit l = 15#32 ↔ (encodeLimit l).toNat = 15 := BitVec.toNat_inj.symm
  rw [decodesBelowPageRange_iff, hfifteen, gt_byteGranMax_iff, encodeLimit_toNat]
  split_ifs <;> omega

/-- Elsewhere decoding keeps the granularity and the 20-bit field, so it keeps the record. -/
theorem encodeRecord_decodeLimitOf (b l : Word) (t : Byte) (hl : ¬ DecodesBelowPageRange l) :
    encodeRecord b (decodeLimitOf (encodeRecord b l t)) t = encodeRecord b l t := by
  rw [decodesBelowPageRange_iff] at hl
  have hd := decodeLimitOf_encodeRecord_toNat b l t
  apply encodeRecord_congr
  · apply BitVec.eq_of_toNat_eq
    simp only [encodeLimit_toNat, hd]
    split_ifs <;> omega
  · simp only [gt_byteGranMax_iff, hd]
    split_ifs <;> omega

theorem decodeLimitOf_encodeRecord_exception (b l : Word) (t : Byte) (hl : DecodesBelowPageRange l) :
    decodeLimitOf (encodeRecord b l t) = 0xFFFF#32 := by
  rw [decodesBelowPageRange_iff] at hl
  apply BitVec.eq_of_toNat_eq
  rw [decodeLimitOf_encodeRecord_toNat, if_neg (by omega), BitVec.toNat_ofNat]
  omega

/-- Settles O19: base and access byte come back whole, so it turns on the limit alone. -/
theorem reencodeDecodedRecord : Obligations.ReencodeDecodedRecord := by
  rintro b l t r rfl
  rw [recBase_encodeRecord, recAccess_encodeRecord, recPageGranular_encodeRecord, recRawLimit_encodeRecord,
    decide_eq_true_eq]
  refine ⟨decodesBelowPageRange_iff_encodeLimit l, encodeRecord_decodeLimitOf b l t, fun hl => ?_⟩
  rw [decodeLimitOf_encodeRecord_exception b l t hl, recRawLimit_encodeRecord, recPageGranular_encodeRecord]
  exact ⟨rfl, rfl, rfl⟩

end Sys2Proof.Machine

/-!
The table loader (41_table_loader.md): CONSTRUCT's checks in their order (R85), what it writes with privilege and
without (R87 to R91), the selector queries (R95 to R98), and the condition behind each fault a step takes (R102, R107).
-/

namespace Sys2Proof.Machine

/-! ### CONSTRUCT -/

/-- Settles O22: the first two outcomes of CONSTRUCT are the faults of codes 3 and 5. -/
theorem constructChecksInOrder : Obligations.ConstructChecksInOrder := by
  refine ⟨fun s hrun hi => ?_, fun s hrun hni hwraps => ?_⟩
  · exact ⟨_, (exec_eq_next .construct s _).mpr ⟨rfl, hrun, construct_installed s hi⟩,
      recordsFault_statusFaulted s.status 3#4⟩
  · exact ⟨_, (exec_eq_next .construct s _).mpr ⟨rfl, hrun, construct_wraps s hni (decide_eq_true hwraps)⟩,
      recordsFault_statusFaulted s.status 5#4⟩

theorem loadRecord_eq (b : Word) : loadRecord b = (b.setWidth 48 <<< 16) ||| 0x001F#48 := by
  have hlimit : gdtLimit.setWidth 48 = 0x001F#48 := by decide
  rw [loadRecord, hlimit]

/-- The build and the load record reach memory and `PD` alone (R87, R88). -/
theorem buildTable_formPd_eq (s : State) :
    s.buildTable.formPd =
      { s with mem := writeTable s.tableBase s.mem, pd := (s.tableBase.setWidth 48 <<< 16) ||| 0x001F#48 } := by
  simp only [State.formPd, State.buildTable, loadRecord_eq]

/-- The install, its parts taken together (R88, R89, R91, R118). -/
theorem install_eq (s : State) :
    s.buildTable.formPd.loadGdtr.markInstalled =
      { s with
        mem := writeTable s.tableBase s.mem, pd := (s.tableBase.setWidth 48 <<< 16) ||| 0x001F#48,
        gdtr := ⟨0x001F#16, s.tableBase⟩, status := statusInstalled s.status, watch := true } := by
  have hgdtr : gdtrOfRecord ((s.tableBase.setWidth 48 <<< 16) ||| 0x001F#48) = ⟨0x001F#16, s.tableBase⟩ := by
    rw [← loadRecord_eq]
    exact gdtrOfRecord_loadRecord s.tableBase
  simp only [State.loadGdtr, State.markInstalled, buildTable_formPd_eq, hgdtr]

/-- The fault taken instead of the install, on what the build left (R90). -/
theorem refused_install_eq (s : State) :
    s.buildTable.formPd.raise .privilegeViolation =
      { s with
        mem := writeTable s.tableBase s.mem, pd := (s.tableBase.setWidth 48 <<< 16) ||| 0x001F#48,
        status := statusFaulted s.status 4#4 } := by
  simp only [State.raise, buildTable_formPd_eq, Cause.code]

/-- Settles O21: past its checks and with privilege CONSTRUCT is the install, whose memory is the table's 32 bytes. -/
theorem constructInstalls : Obligations.ConstructInstalls := by
  refine ⟨decode_encode .construct rfl, fun s hrun hni hfits hcpl => ?_⟩
  have hconstruct := construct_installs s hni ((tableWraps_eq_false s).mpr hfits) hcpl
  exact ⟨writeTable s.tableBase s.mem, statusInstalled s.status,
    (exec_eq_next .construct s _).mpr ⟨rfl, hrun, hconstruct.trans (install_eq s)⟩,
    lifeField_statusInstalled _, faultField_statusInstalled _, causeField_statusInstalled _,
    reservedField_statusInstalled _, holdsTable_writeTable _ _, sameOutsideTable_writeTable _ _⟩

/-- Settles O23: without privilege the fault of code 4 is taken on the block whose table and load record stand. -/
theorem constructWithoutPrivilege : Obligations.ConstructWithoutPrivilege := by
  intro s hrun hni hfits hcpl
  have hconstruct := construct_unprivileged s hni ((tableWraps_eq_false s).mpr hfits) hcpl
  exact ⟨writeTable s.tableBase s.mem, statusFaulted s.status 4#4,
    (exec_eq_next .construct s _).mpr ⟨rfl, hrun, hconstruct.trans (refused_install_eq s)⟩,
    recordsFault_statusFaulted s.status 4#4, holdsTable_writeTable _ _, sameOutsideTable_writeTable _ _⟩

/-! ### The selector queries -/

theorem querySelector_installed (s : State) (sel : BitVec 16) (hi : s.installed) :
    s.querySelector sel = s.writeRes (sel.setWidth 64) := if_pos hi

theorem querySelector_not_installed (s : State) (sel : BitVec 16) (hni : ¬ s.installed) :
    s.querySelector sel = s.raise .notInstalled := if_neg hni

theorem exec_codeSel_installed (s : State) (hrun : s.running) (hi : s.installed) :
    exec .codeSel s = .next { s with res := some 0x0010#64 } :=
  (exec_eq_next .codeSel s _).mpr ⟨rfl, hrun, querySelector_installed s codeSelector hi⟩

theorem exec_dataSel_installed (s : State) (hrun : s.running) (hi : s.installed) :
    exec .dataSel s = .next { s with res := some 0x0018#64 } :=
  (exec_eq_next .dataSel s _).mpr ⟨rfl, hrun, querySelector_installed s dataSelector hi⟩

/-- Settles O25: both queries turn on the lifecycle alone, and `NOT_INSTALLED` has code 2. -/
theorem selectorQueries : Obligations.SelectorQueries := by
  refine ⟨decode_encode .codeSel rfl, decode_encode .dataSel rfl, fun s hrun hi => ?_, fun s hrun hni => ?_⟩
  · exact ⟨exec_codeSel_installed s hrun hi, exec_dataSel_installed s hrun hi⟩
  · have hrecords := recordsFault_statusFaulted s.status 2#4
    exact ⟨⟨_, (exec_eq_next .codeSel s _).mpr ⟨rfl, hrun, querySelector_not_installed s _ hni⟩, hrecords⟩,
      ⟨_, (exec_eq_next .dataSel s _).mpr ⟨rfl, hrun, querySelector_not_installed s _ hni⟩, hrecords⟩⟩

/-- The code entry's bytes in memory order (R94). -/
theorem leBytes_codeEntry : leBytes descBytes (tableEntry 2).toNat =
    [0xFF#8, 0x3F#8, 0x00#8, 0x00#8, 0x00#8, 0x9A#8, 0xC0#8, 0x00#8] := by
  obtain ⟨-, -, hcode, -⟩ := tableEntry_values
  rw [hcode]; decide

/-- The data entry's bytes in memory order (R94). -/
theorem leBytes_dataEntry : leBytes descBytes (tableEntry 3).toNat =
    [0xFF#8, 0x3F#8, 0x00#8, 0x00#8, 0x00#8, 0x92#8, 0xC0#8, 0x00#8] := by
  obtain ⟨-, -, -, hdata⟩ := tableEntry_values
  rw [hdata]; decide

/-- Settles O26: 16 and 24 are the offsets of entries 2 and 3, which the invariant keeps intact. -/
theorem selectorsNameTheirEntries : Obligations.SelectorsNameTheirEntries := by
  intro s hs hrun hi
  have htable := hs.table_of_running hrun hi
  have hcode := htable.memRead_entry (i := 2) (by decide)
  have hdata := htable.memRead_entry (i := 3) (by decide)
  rw [leBytes_codeEntry] at hcode
  rw [leBytes_dataEntry] at hdata
  exact ⟨0x0010#64, 0x0018#64, exec_codeSel_installed s hrun hi, exec_dataSel_installed s hrun hi, rfl, rfl,
    by decide, by decide, by decide, by decide, by decide, hcode, hdata⟩

/-! ### The condition behind each fault -/

/-- What must hold of the running block `s` for the event `e` to take the fault `c` (R85, R102). -/
inductive FaultCondition (s : State) : Event → Cause → Prop
  | reservedCommand (c : Byte) (err : DecodeError) (hd : decode [c] = .error err) :
      FaultCondition s (.command c) .illegalCommand
  | earlySelector (c : Byte) (hc : c = 0x11#8 ∨ c = 0x12#8) (hni : ¬ s.installed) :
      FaultCondition s (.command c) .notInstalled
  | constructAgain (hi : s.installed) : FaultCondition s (.command 0x10#8) .alreadyInstalled
  | constructWraps (hni : ¬ s.installed) (hw : lastTableBase < s.tableBase) :
      FaultCondition s (.command 0x10#8) .tableRegionWrap
  | constructUnprivileged (hni : ¬ s.installed) (hfits : s.tableBase ≤ lastTableBase) (hcpl : s.cpl0 = false) :
      FaultCondition s (.command 0x10#8) .privilegeViolation
  | loadUnprivileged (b0 b1 b2 : Byte) (mod : BitVec 2) (rm : BitVec 3)
      (hd : decode [b0, b1, b2] = .ok (.lgdt mod rm)) (hcpl : s.cpl0 = false) :
      FaultCondition s (.tableLoad b0 b1 b2) .privilegeViolation
  | watchedWrite (addr : Word) (n v : Nat) (hwatch : s.watch = true)
      (hinside : ∃ k < n, s.tableBase.toNat ≤ addr.toNat + k ∧ addr.toNat + k < s.tableBase.toNat + 32) :
      FaultCondition s (.hostWrite addr n v) .tableMutated
  | unwrittenRes (hres : s.res = none) : FaultCondition s .readRes .readUnwritten

/-- `t` records a fault whose condition held of `e` and `s`, and has the lifecycle of `s`. -/
def State.FaultExplained (s : State) (e : Event) (t : State) : Prop :=
  ∃ c, FaultCondition s e c ∧ t.life = s.life ∧ t.cause = c.code

theorem FaultCondition.explains_raise {s : State} {e : Event} {c : Cause} (h : FaultCondition s e c) (u : State)
    (hlife : u.life = s.life) : s.FaultExplained e (u.raise c) :=
  ⟨c, h, (raise_life u c).trans hlife, raise_cause u c⟩

theorem construct_faultExplained (s : State) (hrun : s.running)
    (hf : (s.writeCmd 0x10#8).construct.faulted = true) :
    s.FaultExplained (.command 0x10#8) (s.writeCmd 0x10#8).construct := by
  rcases construct_cases (s.writeCmd 0x10#8) with ⟨hi, heq⟩ | ⟨hni, hw, heq⟩ | ⟨hni, hw, hcpl, heq⟩ | ⟨-, -, -, heq⟩
  · rw [heq]; exact (FaultCondition.constructAgain (s := s) hi).explains_raise _ rfl
  · rw [heq]; exact (FaultCondition.constructWraps (s := s) hni (of_decide_eq_true hw)).explains_raise _ rfl
  · rw [heq]
    exact (FaultCondition.constructUnprivileged (s := s) hni ((tableWraps_eq_false _).mp hw) hcpl).explains_raise _
      (by simp)
  · exact absurd hf (by simpa [heq] using hrun)

theorem querySelector_faultExplained (s : State) (c : Byte) (sel : BitVec 16) (hrun : s.running)
    (hc : c = 0x11#8 ∨ c = 0x12#8) (hf : ((s.writeCmd c).querySelector sel).faulted = true) :
    s.FaultExplained (.command c) ((s.writeCmd c).querySelector sel) := by
  rcases querySelector_cases (s.writeCmd c) sel with ⟨-, heq⟩ | ⟨hni, heq⟩
  · exact absurd hf (by simpa [heq] using hrun)
  · rw [heq]; exact (FaultCondition.earlySelector (s := s) c hc hni).explains_raise _ rfl

/-- Of the commands only CONSTRUCT and the two selector queries fault (R71, R102). -/
theorem command_faultExplained (s : State) (c : Byte) (i : Instr) (hd : decode [c] = .ok i) (hrun : s.running)
    (hf : (instrEffect i (s.writeCmd c)).faulted = true) :
    s.FaultExplained (.command c) (instrEffect i (s.writeCmd c)) := by
  cases i with
  | nop | encode | decodeBase | decodeLimit | decodeGran => exact absurd hf (by simpa [instrEffect] using hrun)
  | construct =>
    obtain rfl := decode_command_construct c hd
    exact construct_faultExplained s hrun hf
  | codeSel =>
    have hc : c = 0x11#8 := by simpa using decode_command c _ hd
    exact querySelector_faultExplained s c _ hrun (.inl hc) hf
  | dataSel =>
    have hc : c = 0x12#8 := by simpa using decode_command c _ hd
    exact querySelector_faultExplained s c _ hrun (.inr hc) hf
  | lgdt mod rm => exact absurd hd (decode_command_ne_lgdt c mod rm)

/-- Every event that leaves a running block Faulted met the condition of the cause it records (R102, R107). -/
theorem eventEffect_faultExplained (e : Event) (s t : State) (hrun : s.running) (he : eventEffect e s t)
    (hf : t.faulted = true) : s.FaultExplained e t := by
  have hstays : t.faulted ≠ s.faulted := by simp [hf, hrun]
  cases e with
  | command c =>
    obtain ⟨-, ⟨i, hd, rfl⟩ | ⟨err, hd, rfl⟩⟩ := he
    · exact command_faultExplained s c i hd hrun hf
    · exact (FaultCondition.reservedCommand c err hd).explains_raise _ rfl
  | tableLoad b0 b1 b2 =>
    obtain ⟨-, ⟨i, hd⟩, rfl⟩ := he
    obtain ⟨-, -, -, -, rfl⟩ := decode_tableLoad b0 b1 b2 i hd
    rcases dispatchLoad_cases s (fun s => s) with ⟨-, heq⟩ | ⟨hcpl, heq⟩
    · exact absurd (by rw [heq, loadGdtr_faulted]) hstays
    · rw [heq]; exact (FaultCondition.loadUnprivileged b0 b1 b2 _ _ hd hcpl).explains_raise s rfl
  | hostWrite addr n v =>
    obtain ⟨-, -, rfl⟩ := he
    rcases hostWrite_cases s addr n v with ⟨hseen, heq⟩ | ⟨-, heq⟩
    · obtain ⟨hwatch, hinside⟩ := (watched_and_touchesTable_iff s addr.toNat n).mp hseen
      rw [heq]; exact (FaultCondition.watchedWrite addr n v hwatch hinside).explains_raise _ rfl
    · exact absurd (by rw [heq]; rfl) hstays
  | readRes =>
    obtain rfl := he
    rcases readRes_cases s with ⟨-, heq⟩ | ⟨-, hres, heq⟩ | ⟨-, v, -, heq⟩
    · exact absurd (by rw [heq, saw_faulted]) hstays
    · rw [heq]; exact (FaultCondition.unwrittenRes hres).explains_raise _ rfl
    · exact absurd (by rw [heq, saw_faulted]) hstays
  | reset p => obtain rfl := he; exact absurd hf (by decide : faultField 0x00#8 ≠ true)
  | readStatus => obtain rfl := he; exact absurd rfl hstays
  | hostRead a n => obtain ⟨-, -, rfl⟩ := he; exact absurd rfl hstays
  | setBaseIn v | setLimitIn v | setAccessIn v | setRecIn v => obtain ⟨-, rfl⟩ := he; exact absurd rfl hstays

/-- Settles O33: a step that faults performed an event, and the condition of the cause it took is the one claimed. -/
theorem faultCauseNamesItsCondition : Obligations.FaultCauseNamesItsCondition := by
  intro s t hrun h hf
  rcases step_cases s t h with ⟨-, -, rfl⟩ | ⟨e, rest, hp, he⟩
  · exact absurd hf (by simp [hrun])
  obtain ⟨c, hcond, hlife, hcause⟩ := eventEffect_faultExplained e (s.popEvent rest) t hrun he hf
  refine ⟨hlife, ?_⟩
  cases hcond with
  | reservedCommand c err hd => exact .inl ⟨hcause, c, rest, err, hp, hd⟩
  | earlySelector c hc hni =>
    rcases hc with rfl | rfl
    · exact .inr (.inl ⟨hcause, hni, rest, .inl hp⟩)
    · exact .inr (.inl ⟨hcause, hni, rest, .inr hp⟩)
  | constructAgain hi => exact .inr (.inr (.inl ⟨hcause, hi, rest, hp⟩))
  | constructUnprivileged hni hfits hcpl =>
    exact .inr (.inr (.inr (.inl ⟨hcause, hcpl, hni, hfits, rest, hp⟩)))
  | loadUnprivileged b0 b1 b2 mod rm hd hcpl =>
    exact .inr (.inr (.inr (.inr (.inl ⟨hcause, hcpl, b0, b1, b2, rest, hp, mod, rm, hd⟩))))
  | constructWraps hni hw => exact .inr (.inr (.inr (.inr (.inr (.inl ⟨hcause, hw, hni, rest, hp⟩)))))
  | watchedWrite addr n v hwatch hinside =>
    exact .inr (.inr (.inr (.inr (.inr (.inr (.inl ⟨hcause, hwatch, addr, n, v, rest, hp, hinside⟩))))))
  | unwrittenRes hres => exact .inr (.inr (.inr (.inr (.inr (.inr (.inr ⟨hcause, hres, rest, hp⟩))))))

end Sys2Proof.Machine

/-!
Privilege and the Faulted state (60_exceptions.md): `CPL0` matters to CONSTRUCT and the table load alone (R111), and a
Faulted block's only steps are the reads of its two registers and a reset (R108).
-/

namespace Sys2Proof.Machine

/-! ### Privilege -/

/-- A selector query looks at the lifecycle, never at the privilege. -/
theorem querySelector_withCpl0 (s : State) (sel : BitVec 16) (b : Bool) :
    ({ s with cpl0 := b } : State).querySelector sel = { s.querySelector sel with cpl0 := b } := by
  by_cases hi : s.installed
  · rw [querySelector_installed s sel hi, querySelector_installed { s with cpl0 := b } sel hi]
    rfl
  · rw [querySelector_not_installed s sel hi, querySelector_not_installed { s with cpl0 := b } sel hi]
    rfl

/-- Changing the privilege before an instruction that dispatches no table load is changing it afterwards (R111). -/
theorem instrEffect_withCpl0 (i : Instr) (s : State) (b : Bool) (hi : i ≠ .construct)
    (hl : ∀ mod rm, i ≠ .lgdt mod rm) :
    instrEffect i { s with cpl0 := b } = { instrEffect i s with cpl0 := b } := by
  cases i with
  | nop | encode | decodeBase | decodeLimit | decodeGran => rfl
  | codeSel | dataSel => exact querySelector_withCpl0 s _ b
  | construct => exact absurd rfl hi
  | lgdt mod rm => exact absurd rfl (hl mod rm)

theorem State.SameInside.cpl0 {s t : State} (h : s.SameInside t) : t.cpl0 = s.cpl0 := by rw [h]

@[simp] theorem hostWrite_cpl0 (s : State) (a : Word) (n v : Nat) : (s.hostWrite a n v).cpl0 = s.cpl0 := by
  rcases hostWrite_cases s a n v with ⟨-, heq⟩ | ⟨-, heq⟩ <;> simp [heq]

theorem keptByUpdates_cpl0 (b : Bool) : KeptByUpdates fun s => s.cpl0 = b where
  around _ _ hst hs := hst.cpl0.trans hs
  raise _ _ _ hs := hs
  loadGdtr _ hs := hs
  construct s _ hs := (construct_sameHostSide s).cpl0.trans hs
  hostWrite s a n v _ _ hs := (hostWrite_cpl0 s a n v).trans hs

/-- Settles O32: the effect commutes with the change of privilege, and `CPL0` is kept by every update. -/
theorem privilegeMattersOnlyAtInstall : Obligations.PrivilegeMattersOnlyAtInstall := by
  constructor
  · intro i s t b hi hl h
    obtain ⟨hwf, hrun, rfl⟩ := (exec_eq_next i s t).mp h
    rw [exec_running i { s with cpl0 := b } hwf hrun, instrEffect_withCpl0 i s b hi hl]
  · intro s t h hnr
    exact (keptByUpdates_cpl0 s.cpl0).step h (absurd · hnr) rfl

/-! ### The Faulted state -/

theorem readRes_faulted (s : State) (hf : s.faulted = true) : s.readRes = s.saw none := if_pos hf

@[simp] theorem doReset_faulted (s : State) (p : Params) : (s.doReset p).faulted = false :=
  (by decide : faultField 0x00#8 = false)

/-- Every other event takes place on a running block alone (R108). -/
theorem event_of_eventEffect_faulted (e : Event) (s t : State) (he : eventEffect e s t) (hf : s.faulted = true) :
    e = .readStatus ∨ e = .readRes ∨ ∃ p, e = .reset p := by
  cases e with
  | readStatus => exact .inl rfl
  | readRes => exact .inr (.inl rfl)
  | reset p => exact .inr (.inr ⟨p, rfl⟩)
  | _ => exact absurd he.1 (by simp [hf])

/-- Settles O34: a Faulted block accepts no instruction and does not wait; the three events it keeps have the effects
claimed, and no other event's effect is met. -/
theorem faultedAcceptsNothing : Obligations.FaultedAcceptsNothing := by
  intro s hf
  refine ⟨fun i hi => exec_faulted i s hi hf, fun hp => (step_nil s hp).trans (accept_faulted s _ hf),
    fun e rest hp => ⟨?_, ?_, ?_, ?_⟩⟩
  · rintro rfl
    exact step_cons s _ rest hp
  · rintro rfl
    rw [step_readRes s rest hp, readRes_faulted (s.popEvent rest) hf]
    rfl
  · rintro p rfl
    exact ⟨(s.popEvent rest).doReset p, step_cons s _ rest hp, doReset_faulted _ p⟩
  · intro hstatus hres hreset t h
    have he : eventEffect e (s.popEvent rest) t := performEvent_effect e _ t ((step_cons s e rest hp).symm.trans h)
    rcases event_of_eventEffect_faulted e _ t he hf with hkept | hkept | ⟨p, hkept⟩
    · exact hstatus hkept
    · exact hres hkept
    · exact hreset p hkept

end Sys2Proof.Machine

/-!
Reset (70_reset_and_hazards.md): the values it leaves (R118), that it leaves every state, Faulted included (R119), and
that the invariant starts there.
-/

namespace Sys2Proof.Machine

/-! ### The state after reset -/

/-- No address has a value after reset: memory lists none (R118). -/
theorem memGet_resetWith (p : Params) (a : Nat) : memGet (State.resetWith p).mem a = none := memGet_nil a

/-- Settles O44: each register's value is the one R118 names, and memory lists no address. -/
theorem resetLeavesSpecValues : Obligations.ResetLeavesSpecValues :=
  fun p => ⟨rfl, rfl, rfl, rfl, rfl, rfl, memGet_resetWith p, rfl⟩

/-! ### The reset event -/

/-- A reset keeps nothing of the state it leaves but the host's program (R119). -/
theorem doReset_popEvent (s : State) (p : Params) (rest : List Event) :
    (s.popEvent rest).doReset p = { State.resetWith p with pending := rest } := rfl

/-- Settles O45: the step performs the reset, which asks nothing of the state before it. -/
theorem resetLeavesEveryState : Obligations.ResetLeavesEveryState := by
  intro s p rest hp
  calc step s = performEvent (.reset p) (s.popEvent rest) := step_cons s _ rest hp
    _ = .next ((s.popEvent rest).doReset p) := rfl
    _ = .next { State.resetWith p with pending := rest } := by rw [doReset_popEvent]

/-! ### The invariant -/

/-- Settles O46: the machine's own start is the case of the configured arguments. -/
theorem resetMeetsInv : Obligations.ResetMeetsInv :=
  ⟨inv_resetWith Config.params, inv_resetWith⟩

end Sys2Proof.Machine

/-!
What the host meets at the edges of the state (10_state.md section 6): memory keeps its canonical form through every
step, an access past the last address stops the model, a block with nothing to come waits, and LGDT on its own where it
does not load.
-/

namespace Sys2Proof.Machine

/-! ### The canonical form of memory -/

theorem State.SameInside.mem {s t : State} (h : s.SameInside t) : t.mem = s.mem := by rw [h]

/-- CONSTRUCT writes the table only where its region does not wrap, so inside the address space (R35, R85). -/
theorem construct_mem_wf (s : State) (hs : Memory.wf s.mem) : Memory.wf s.construct.mem := by
  have hbuilt : s.tableWraps = false → Memory.wf s.buildTable.mem := fun hw => by
    rw [buildTable_mem]
    exact writeTable_wf s.tableBase s.mem hs ((tableWraps_eq_false s).mp hw)
  rcases construct_cases s with ⟨-, heq⟩ | ⟨-, -, heq⟩ | ⟨-, hw, -, heq⟩ | ⟨-, hw, -, heq⟩ <;> rw [heq]
  · exact hs
  · exact hs
  · rw [raise_mem, formPd_mem]
    exact hbuilt hw
  · rw [markInstalled_mem, loadGdtr_mem, formPd_mem]
    exact hbuilt hw

theorem keptByUpdates_memory_wf : KeptByUpdates fun s => Memory.wf s.mem where
  around _ _ hst hs := by rwa [hst.mem]
  raise _ _ _ hs := hs
  loadGdtr _ hs := hs
  construct s _ hs := construct_mem_wf s hs
  hostWrite s a n v _ hin hs := by
    rw [hostWrite_mem]
    exact memWrite_wf s.mem a.toNat n v hs (of_decide_eq_true hin)

/-- Settles O49: the two updates that write memory write inside the address space, and reset leaves it empty. -/
theorem memoryStaysCanonical : Obligations.MemoryStaysCanonical := by
  intro s t hs h
  refine keptByUpdates_memory_wf.step h (fun hr => ?_) hs
  obtain ⟨p, ht⟩ := step_reset_sameInside h hr
  rw [ht.mem]
  exact memory_nil_wf

/-! ### LGDT where it does not load -/

/-- An LGDT term whose ModRM names no memory operand is refused, whatever the state (R60). -/
theorem exec_lgdt_illFormed (mod : BitVec 2) (rm : BitVec 3) (s : State)
    (hi : (Instr.lgdt mod rm).wellFormed = false) : exec (.lgdt mod rm) s = .refused .registerOperand := by
  simp [exec, execLgdt, hi]

/-- Settles O28: without privilege the dispatch is the fault alone, of code 4; `mod` = 11 is the one ill-formed term. -/
theorem tableLoadTrapsOrStops : Obligations.TableLoadTrapsOrStops := by
  refine ⟨fun s mod rm hrun hcpl hmod => ?_, fun s rm => exec_lgdt_illFormed 0b11#2 rm s rfl⟩
  have hi : (Instr.lgdt mod rm).wellFormed = true := by simpa [Instr.wellFormed] using hmod
  refine ⟨statusFaulted s.status 4#4, ?_, recordsFault_statusFaulted s.status 4#4⟩
  rw [exec_running (.lgdt mod rm) s hi hrun, instrEffect, dispatchLoad_unprivileged s _ hcpl]
  rfl

/-! ### An access past the last address, and no action to come -/

/-- A running block stops at an access that would pass the last address (R28). -/
theorem hostAccess_pastTop (s : State) (addr : Word) (n : Nat) (k : State → State) (hrun : s.running)
    (hout : addressCount < addr.toNat + n) : s.hostAccess addr n k = .fault .outsideAddressSpace := by
  have hnot : inAddressSpace addr.toNat n = false := decide_eq_false (Nat.not_le.mpr hout)
  simp [State.hostAccess, hrun, hnot]

/-- Settles O38: a write and a read pass the same bound before they do anything. -/
theorem hostAccessPastTopStops : Obligations.HostAccessPastTopStops := by
  intro s addr n v rest hrun hout hp
  have hstops : ∀ k, (s.popEvent rest).hostAccess addr n k = .fault .outsideAddressSpace :=
    fun k => hostAccess_pastTop (s.popEvent rest) addr n k hrun hout
  rcases hp with hp | hp
  · rw [step_cons s _ rest hp, performEvent, hstops]
  · rw [step_cons s _ rest hp, performEvent, hstops]

/-- Settles O41: waiting is the command that leaves the state as it is. -/
theorem idleBlockWaits : Obligations.IdleBlockWaits := by
  intro s hrun hp
  calc step s = s.waitForHost := step_nil s hp
    _ = .next s := accept_running s (fun s => s) hrun

end Sys2Proof.Machine
